-- ==== Sys2Proof/Word.lean ====
section
/-! DEFINITION. The units of data of 20_memory.md rule R41 and the words of the command and status interfaces. -/

namespace Sys2Proof

/-- A byte, a character or a symbol code: one 8-bit unit (R41, decision D6). -/
abbrev Byte := BitVec 8

/-- A command word on the command port (R60). -/
abbrev CmdWord := BitVec 16

/-- A word the host reads: `STATUS` (R28) or `FAULTINFO` (R29). -/
abbrev StatusWord := BitVec 32

/-- A digit value 0 to 84 (R41). No other value exists, so `D2C` has none to give beyond 84 (R82). -/
abbrev Digit := Fin 85

end Sys2Proof
end

