-- ==== Sys2Proof/Machine/Operands.lean ====
section
/-! DEFINITION. How the units of data are assembled and taken apart: block packing and unpacking (20_memory.md
rules R42 and R43) and digit operands (30_encoding.md rule R61). -/

namespace Sys2Proof.Machine

/-- `Pack4` (R42): four bytes, the first the most significant. -/
def pack4 (b0 b1 b2 b3 : Byte) : Nat :=
  b0.toNat <<< 24 ||| b1.toNat <<< 16 ||| b2.toNat <<< 8 ||| b3.toNat

/-- `Bytes4` (R43): the low four bytes of a value, most significant first. -/
def bytes4 (v : Nat) : List Byte :=
  [BitVec.ofNat 8 (v >>> 24 &&& 0xFF), BitVec.ofNat 8 (v >>> 16 &&& 0xFF),
   BitVec.ofNat 8 (v >>> 8 &&& 0xFF), BitVec.ofNat 8 (v &&& 0xFF)]

/-- `v mod 85` as a digit. -/
def digitOf (v : Nat) : Digit := ⟨v % 85, Nat.mod_lt v (by decide)⟩

/-- The digit an 8-bit operand stands for; `none` from 85 on (R61). -/
def operandDigit (d : Byte) : Option Digit :=
  if h : d.toNat < 85 then some ⟨d.toNat, h⟩ else none

end Sys2Proof.Machine
end

