-- ==== Sys2Proof/Machine/Alphabet.lean ====
section
/-! DEFINITION. The constant tables `D2C_ROM` and `C2D_ROM`, the mapping functions read from them, and the
whitespace set (40_alphabet.md rules R80 to R89). No command writes a table and reset does not change one
(10_state.md rule R30), so each is a constant. -/

namespace Sys2Proof.Machine

/-- `D2C_ROM` (R81): the symbol code of each digit, digit 0 first. ASCII codes from general knowledge
(log entry 14). -/
def d2cRom : List Byte :=
  [0x30, 0x31, 0x32, 0x33, 0x34, 0x35, 0x36, 0x37, 0x38, 0x39] ++
  [0x41, 0x42, 0x43, 0x44, 0x45, 0x46, 0x47, 0x48, 0x49, 0x4A, 0x4B, 0x4C, 0x4D] ++
  [0x4E, 0x4F, 0x50, 0x51, 0x52, 0x53, 0x54, 0x55, 0x56, 0x57, 0x58, 0x59, 0x5A] ++
  [0x61, 0x62, 0x63, 0x64, 0x65, 0x66, 0x67, 0x68, 0x69, 0x6A, 0x6B, 0x6C, 0x6D] ++
  [0x6E, 0x6F, 0x70, 0x71, 0x72, 0x73, 0x74, 0x75, 0x76, 0x77, 0x78, 0x79, 0x7A] ++
  [0x21, 0x23, 0x24, 0x25, 0x26, 0x28, 0x29, 0x2A, 0x2B, 0x2D, 0x3B, 0x3C] ++
  [0x3D, 0x3E, 0x3F, 0x40, 0x5E, 0x5F, 0x60, 0x7B, 0x7C, 0x7D, 0x7E]

theorem d2cRom_length : d2cRom.length = 85 := by decide

/-- `D2C(d) = D2C_ROM[d]` (R82), total on the digits. -/
def d2c (d : Digit) : Byte := d2cRom[d.val]'(by rw [d2cRom_length]; exact d.isLt)

/-- The punctuation rows of R84. -/
def c2dPunctuation : List (Nat × Digit) :=
  [(0x21, 62), (0x23, 63), (0x24, 64), (0x25, 65), (0x26, 66), (0x28, 67), (0x29, 68), (0x2A, 69)] ++
  [(0x2B, 70), (0x2D, 71), (0x3B, 72), (0x3C, 73), (0x3D, 74), (0x3E, 75), (0x3F, 76), (0x40, 77)] ++
  [(0x5E, 78), (0x5F, 79), (0x60, 80), (0x7B, 81), (0x7C, 82), (0x7D, 83), (0x7E, 84)]

/-- `C2D(c)` by the table of R84: three ranges, the punctuation rows, and `none` for every other code. -/
def c2d (c : Byte) : Option Digit :=
  let n := c.toNat
  if 0x30 ≤ n ∧ n ≤ 0x39 then some (digitOf (n - 0x30))
  else if 0x41 ≤ n ∧ n ≤ 0x5A then some (digitOf (n - 0x41 + 10))
  else if 0x61 ≤ n ∧ n ≤ 0x7A then some (digitOf (n - 0x61 + 36))
  else c2dPunctuation.lookup n

/-- `C2D_ROM` (R83): the 256 entries, code 0x00 first. -/
def c2dRom : List (Option Digit) := (List.range 256).map fun n => c2d (BitVec.ofNat 8 n)

/-- `IsWS(c)` (R88): space, line feed, vertical tab, carriage return, and no other code. -/
def isWS (c : Byte) : Bool := c == 0x20 || c == 0x0A || c == 0x0B || c == 0x0D

end Sys2Proof.Machine
end

