-- ==== Sys2Proof/Syntax.lean ====
section
/-! DEFINITION. The commands of 30_encoding.md rule R62, one constructor per row of the opcode table. -/

namespace Sys2Proof

/-- A command the block can run. -/
inductive Instr where
  /-- `ENC_PUSH b` (R108). -/
  | encPush (b : Byte)
  /-- `ENC_END` (R109). -/
  | encEnd
  /-- `DEC_PUSH c` (R131). -/
  | decPush (c : Byte)
  /-- `DEC_END` (R132). -/
  | decEnd
  /-- `MAP_D2C d` (R90); the 8-bit operand is a digit only below 85. -/
  | mapD2C (d : Byte)
  /-- `MAP_C2D c` (R91). -/
  | mapC2D (c : Byte)
deriving DecidableEq, Repr

end Sys2Proof
end

