-- ==== Sys2Proof/WellFormed.lean ====
section
/-! DEFINITION. Which commands have an encoding of their own (30_encoding.md rules R61 and R64). -/

namespace Sys2Proof

/-- `MAP_D2C`'s operand must be below 85. Every other operand value is legal, and the END commands
carry none. -/
def Instr.wellFormed : Instr → Bool
  | .encPush _ => true
  | .encEnd => true
  | .decPush _ => true
  | .decEnd => true
  | .mapD2C d => d.toNat < 85
  | .mapC2D _ => true

end Sys2Proof
end

