-- ==== Sys2Proof/Decode.lean ====
section
/-! DEFINITION. The command encoding of 30_encoding.md: the fields of a word (R60), the checks made before a
command runs (R63), and the encoder. The decoder is total on all 2^16 words. -/

namespace Sys2Proof

/-- Why a word spells no command: the causes of 60_exceptions.md rule R153, in the order of the checks. -/
inductive DecodeError where
  /-- `OPC` is 0x0 or in 0x7 to 0xF. -/
  | illegalOpcode
  /-- `RSV` is not 0, or an END command carries an operand. -/
  | reservedField
  /-- `MAP_D2C` with an operand of 85 or more. -/
  | digitRange
deriving DecidableEq, Repr

/-- The six opcodes of R62. -/
inductive Opcode where
  | encPush
  | encEnd
  | decPush
  | decEnd
  | mapD2C
  | mapC2D
deriving DecidableEq, Repr

/-- `OPC`, bits 15:12 (R60). -/
def opcField (w : CmdWord) : BitVec 4 := w.extractLsb' 12 4

/-- `RSV`, bits 11:8 (R60). -/
def rsvField (w : CmdWord) : BitVec 4 := w.extractLsb' 8 4

/-- `OPERAND`, bits 7:0, never extended, scaled or shifted (R60, R61). -/
def operandField (w : CmdWord) : Byte := w.extractLsb' 0 8

/-- The opcode map of R62; `none` is the illegal opcodes 0x0 and 0x7 to 0xF. -/
def Opcode.ofField (f : BitVec 4) : Option Opcode :=
  match f.toNat with
  | 1 => some .encPush
  | 2 => some .encEnd
  | 3 => some .decPush
  | 4 => some .decEnd
  | 5 => some .mapD2C
  | 6 => some .mapC2D
  | _ => none

/-- The value of `OPC` for each opcode (R62). -/
def Opcode.field : Opcode → BitVec 4
  | .encPush => 0x1
  | .encEnd => 0x2
  | .decPush => 0x3
  | .decEnd => 0x4
  | .mapD2C => 0x5
  | .mapC2D => 0x6

/-- The END commands take no operand: `OPERAND` must be 0 (R61). -/
def Opcode.takesOperand : Opcode → Bool
  | .encPush => true
  | .encEnd => false
  | .decPush => true
  | .decEnd => false
  | .mapD2C => true
  | .mapC2D => true

/-- The command an opcode and its operand spell. -/
def Opcode.withOperand (o : Opcode) (op : Byte) : Instr :=
  match o with
  | .encPush => .encPush op
  | .encEnd => .encEnd
  | .decPush => .decPush op
  | .decEnd => .decEnd
  | .mapD2C => .mapD2C op
  | .mapC2D => .mapC2D op

/-- The decoder of R63, its checks in the order written: ILLEGAL_OPCODE, RESERVED_FIELD, DIGIT_RANGE. -/
def decode (w : CmdWord) : Except DecodeError Instr :=
  match Opcode.ofField (opcField w) with
  | none => .error .illegalOpcode
  | some o =>
    if rsvField w ≠ 0 then .error .reservedField
    else if o.takesOperand = false ∧ operandField w ≠ 0 then .error .reservedField
    else if o = .mapD2C ∧ 85 ≤ (operandField w).toNat then .error .digitRange
    else .ok (o.withOperand (operandField w))

/-- The assembled word `(OPC << 12) | operand` of R66, with `RSV` = 0. -/
def commandWord (o : Opcode) (op : Byte) : CmdWord := o.field ++ (0 : BitVec 4) ++ op

/-- The opcode of a command. -/
def Instr.opcode : Instr → Opcode
  | .encPush _ => .encPush
  | .encEnd => .encEnd
  | .decPush _ => .decPush
  | .decEnd => .decEnd
  | .mapD2C _ => .mapD2C
  | .mapC2D _ => .mapC2D

/-- `OPERAND` of a command's word; 0 for the commands that take none (R60). -/
def Instr.operand : Instr → Byte
  | .encPush b => b
  | .encEnd => 0
  | .decPush c => c
  | .decEnd => 0
  | .mapD2C d => d
  | .mapC2D c => c

/-- The encoder: the word of a command, from the table of R62. -/
def encode (i : Instr) : CmdWord := commandWord i.opcode i.operand

/-- The command the decoder reads from an opcode-table row's bits; commands are single 16-bit words (R65). -/
def decodeTableWord (nbits w : Nat) : Option Instr :=
  match decode (BitVec.ofNat 16 (w % 2 ^ nbits)) with
  | .ok i => some i
  | .error _ => none

end Sys2Proof
end

