-- ==== Sys2Proof/Config.lean ====
section
/-! DEFINITION. What an implementation fixes: the OPEN parameters of 00_scope.md rule R8. The other
parameters of R8 have one value each and stand where they are used. -/

namespace Sys2Proof

/-- The three OPEN parameters, which the model takes as an argument. `none` means that no limit is given.
DESIGN CHOICE, unsafe for a claim about a run that starts with no limit (log entry 3). -/
structure Capacities where
  /-- `ENC_FRAME_CAP`: the largest number of symbols one encoder frame may produce. -/
  encFrameCap : Option Nat
  /-- `DEC_FRAME_CAP`: the largest number of bytes one decoder frame may produce. -/
  decFrameCap : Option Nat
  /-- `LOG_DEPTH`: how many results each log holds before the host reads them. -/
  logDepth : Option Nat
deriving DecidableEq, Repr

/-- The unbounded buffers and logs of 20_memory.md rule R57. -/
def Capacities.unbounded : Capacities :=
  { encFrameCap := none, decFrameCap := none, logDepth := none }

end Sys2Proof
end

