-- ==== Sys2Proof/Machine/State.lean ====
section
/-! DEFINITION. Every piece of state of 10_state.md rule R20, the result values of R25, the host's actions of
20_memory.md rule R56, and the state after reset (70_reset_and_hazards.md rule R170). -/

namespace Sys2Proof.Machine

/-- A decoder frame result (R25, 60_exceptions.md rule R150). -/
inductive DecResult where
  /-- `Ok(bs)`. -/
  | ok (bs : List Byte)
  /-- `Err(INVALID_CHARACTER, c)`. -/
  | invalidCharacter (c : Byte)
  /-- `Err(UNEXPECTED_EOF)`. -/
  | unexpectedEof
deriving DecidableEq, Repr

/-- A mapper result (R25). -/
inductive LutResult where
  /-- `Sym(s)`. -/
  | sym (s : Byte)
  /-- `Digit(d)`. -/
  | digit (d : Digit)
  /-- `NoDigit(c)`. -/
  | noDigit (c : Byte)
deriving DecidableEq, Repr

/-- The value of `FAULT_CAUSE` (60_exceptions.md rule R153). -/
inductive FaultCause where
  | noFault
  | illegalOpcode
  | reservedField
  | digitRange
deriving DecidableEq, Repr

/-- The three result logs. -/
inductive LogName where
  | enc
  | dec
  | lut
deriving DecidableEq, Repr

/-- What the host can do to the block (R56). Closing a frame is issuing its END command. -/
inductive HostAction where
  /-- Puts one word on the command port. -/
  | command (w : CmdWord)
  /-- Reads `STATUS`. -/
  | readStatus
  /-- Reads `FAULTINFO`. -/
  | readFaultInfo
  /-- Takes the oldest unread result of a log. -/
  | readLog (l : LogName)
  /-- Asserts the block reset. -/
  | assertReset
deriving DecidableEq, Repr

/-- How many results of each log the host has taken. The model's own bookkeeping for the word "unread" of R57:
the block records nothing of a read (log entry 5). -/
structure ReadCounts where
  enc : Nat
  dec : Nat
  lut : Nat
deriving DecidableEq, Repr

/-- The block (the twelve elements of R20 that change) and, after them, the model's own three fields. The
constant tables of R30 are `d2cRom` and `c2dRom` of Machine/Alphabet.lean (log entry 6). -/
structure State where
  /-- `ENC_ACC`: the bytes of the current incomplete block, oldest first. -/
  encAcc : List Byte
  /-- `ENC_OUT`: the symbols of the current encoder frame, not yet delivered. -/
  encOut : List Byte
  /-- `ENC_RES`: the delivered encoder frame results, oldest first. -/
  encRes : List (List Byte)
  /-- `DEC_ACC`: the digits of the current incomplete group, oldest first. -/
  decAcc : List Digit
  /-- `DEC_OUT`: the bytes of the current decoder frame, not yet delivered. -/
  decOut : List Byte
  /-- `DEC_FAILED`: the current decoder frame has met an invalid character. -/
  decFailed : Bool
  /-- `DEC_ERRCHAR`: the first invalid character of the current decoder frame. -/
  decErrChar : Byte
  /-- `DEC_RES`: the delivered decoder frame results, oldest first. -/
  decRes : List DecResult
  /-- `LUT_RES`: the mapper results, oldest first. -/
  lutRes : List LutResult
  /-- `FAULT`: the block has faulted. -/
  fault : Bool
  /-- `FAULT_CAUSE`: why it faulted. -/
  faultCause : FaultCause
  /-- `FAULT_WORD`: the command word that faulted. -/
  faultWord : CmdWord
  /-- The model's own: how many results the host has taken from each log (log entry 5). -/
  reads : ReadCounts
  /-- The model's own: the OPEN parameters, the same throughout a run (log entry 3). -/
  caps : Capacities
  /-- The model's own: what the host does next, in the order it does it (R50, log entry 1). -/
  pending : List HostAction
deriving DecidableEq, Repr

/-- The block right after reset (R170), with the given capacities and a host that has nothing to do yet. -/
def State.resetWith (c : Capacities) : State where
  encAcc := []
  encOut := []
  encRes := []
  decAcc := []
  decOut := []
  decFailed := false
  decErrChar := 0x00
  decRes := []
  lutRes := []
  fault := false
  faultCause := .noFault
  faultWord := 0x0000
  reads := { enc := 0, dec := 0, lut := 0 }
  caps := c
  pending := []

/-- The machine right after reset, with the unbounded buffers and logs of R57 (DESIGN CHOICE, log entry 3). -/
def State.reset : State := State.resetWith Capacities.unbounded

/-- Reasons for a step to stop with a fault. There is none: the block fault of R154 is a next state, from which
the block goes on discarding commands and answering reads (log entry 7). -/
inductive Fault where
deriving DecidableEq, Repr

/-- Reasons for a step to be refused. -/
inductive Refusal where
  /-- Raised by `exec` alone, for a command that has no meaning yet (safe). No arm of `exec` raises it. -/
  | notModelled (mnemonic : String)
  /-- Raised by `ENC_PUSH` and `ENC_END` when the frame would hold more than `ENC_FRAME_CAP` symbols: R57 asks
  for a refusal, and the model makes no claim about the run (safe). -/
  | encFrameCapExceeded
  /-- Raised by `DEC_PUSH` and `DEC_END` when the frame would hold more than `DEC_FRAME_CAP` bytes (R57; safe). -/
  | decFrameCapExceeded
  /-- Raised by `ENC_END`, `DEC_END`, `MAP_D2C` and `MAP_C2D` when the named log would hold more than
  `LOG_DEPTH` unread results (R57; safe). -/
  | logDepthExceeded (l : LogName)
deriving DecidableEq, Repr

end Sys2Proof.Machine
end

