-- ==== Sys2Proof/Machine/Ops.lean ====
section
/-! DEFINITION. The operations the command meanings share: sequencing, the named updates of the state, growth of
the frame buffers and logs within the capacities (20_memory.md rule R57), raising the block fault (60_exceptions.md
rule R154) and discarding commands while faulted (R155). -/

namespace Sys2Proof.Machine

/-- The outcome of a command: a next state or a refusal (`Fault` has no reason to give). -/
abbrev Result := Host.Outcome State Fault Refusal

/-- Goes on from the next state of `r`; a stop stays as it is. -/
def andThen (r : Result) (k : State → Result) : Result :=
  match r with
  | .next s => k s
  | .fault f => .fault f
  | .refused e => .refused e

/-- Writes the encoder's `ENC_ACC` and `ENC_OUT`. -/
def State.setEncoder (acc out : List Byte) (s : State) : State := { s with encAcc := acc, encOut := out }

/-- Writes the decoder's `DEC_ACC` and `DEC_OUT`. -/
def State.setDecoder (acc : List Digit) (out : List Byte) (s : State) : State :=
  { s with decAcc := acc, decOut := out }

/-- Writes the decoder's error latch, `DEC_FAILED` and `DEC_ERRCHAR`. -/
def State.setDecLatch (failed : Bool) (c : Byte) (s : State) : State :=
  { s with decFailed := failed, decErrChar := c }

/-- Appends a result to `ENC_RES`. -/
def State.pushEncRes (r : List Byte) (s : State) : State := { s with encRes := s.encRes ++ [r] }

/-- Appends a result to `DEC_RES`. -/
def State.pushDecRes (r : DecResult) (s : State) : State := { s with decRes := s.decRes ++ [r] }

/-- Appends a result to `LUT_RES`. -/
def State.pushLutRes (r : LutResult) (s : State) : State := { s with lutRes := s.lutRes ++ [r] }

/-- Writes `FAULT`, `FAULT_CAUSE` and `FAULT_WORD` as R154 says. -/
def State.setFault (cause : FaultCause) (w : CmdWord) (s : State) : State :=
  { s with fault := true, faultCause := cause, faultWord := w }

/-- Replaces what the host does next. -/
def State.setPending (as : List HostAction) (s : State) : State := { s with pending := as }

/-- Replaces the host's read counts. -/
def State.setReads (r : ReadCounts) (s : State) : State := { s with reads := r }

/-- The cause a word's defect is reported with (R153). -/
def faultCauseOf : DecodeError → FaultCause
  | .illegalOpcode => .illegalOpcode
  | .reservedField => .reservedField
  | .digitRange => .digitRange

/-- `raise Fault(cause)` on command word `w` (R154): the block's one exception. The command is not executed,
nothing else changes and no log is appended. Only reset returns from it (R159). -/
def raiseFault (cause : FaultCause) (w : CmdWord) (s : State) : Result := .next (s.setFault cause w)

/-- Runs a command unless the block has faulted; a faulted block discards it with no effect (R155). -/
def unlessFaulted (s : State) (k : State → Result) : Result := if s.fault then .next s else k s

/-- A size is within a capacity; no capacity given is no limit. -/
def withinCap (cap : Option Nat) (n : Nat) : Bool :=
  match cap with
  | none => true
  | some c => n ≤ c

/-- How many results a log holds in all (R26: every result since reset). -/
def State.logLength (s : State) : LogName → Nat
  | .enc => s.encRes.length
  | .dec => s.decRes.length
  | .lut => s.lutRes.length

/-- How many results of a log the host has taken. -/
def ReadCounts.count (r : ReadCounts) : LogName → Nat
  | .enc => r.enc
  | .dec => r.dec
  | .lut => r.lut

/-- How many results of a log are unread (R57). -/
def State.unread (s : State) (l : LogName) : Nat := s.logLength l - s.reads.count l

/-- Adds symbols to `ENC_OUT`; refused beyond `ENC_FRAME_CAP`, never cut short (R57). -/
def growEncOut (syms : List Byte) (s : State) : Result :=
  if withinCap s.caps.encFrameCap (s.encOut.length + syms.length) then
    .next (s.setEncoder s.encAcc (s.encOut ++ syms))
  else .refused .encFrameCapExceeded

/-- Adds bytes to `DEC_OUT`; refused beyond `DEC_FRAME_CAP`, never cut short (R57). -/
def growDecOut (bs : List Byte) (s : State) : Result :=
  if withinCap s.caps.decFrameCap (s.decOut.length + bs.length) then
    .next (s.setDecoder s.decAcc (s.decOut ++ bs))
  else .refused .decFrameCapExceeded

/-- Goes on with `s'`, where one more result of log `l` is appended, if the log has room for it (R57). -/
def ifLogRoom (l : LogName) (s s' : State) : Result :=
  if withinCap s.caps.logDepth (s.unread l + 1) then .next s' else .refused (.logDepthExceeded l)

/-- `append(ENC_RES, r)`. -/
def appendEncRes (r : List Byte) (s : State) : Result := ifLogRoom .enc s (s.pushEncRes r)

/-- `append(DEC_RES, r)`. -/
def appendDecRes (r : DecResult) (s : State) : Result := ifLogRoom .dec s (s.pushDecRes r)

/-- `append(LUT_RES, r)`. -/
def appendLutRes (r : LutResult) (s : State) : Result := ifLogRoom .lut s (s.pushLutRes r)

end Sys2Proof.Machine
end

