-- ==== Sys2Proof/Machine/Decoder.lean ====
section
/-! DEFINITION. The block decoder of 42_decoder.md: the pure functions `Val5`, `DecBlock`, `DecTail` and `Decode`
(rules R120 to R126) and the commands `DEC_PUSH` and `DEC_END` (R131 and R132). -/

namespace Sys2Proof.Machine

/-- `Val5` (R121): the weighted sum, exact, up to 85^5 - 1. -/
def val5 (d0 d1 d2 d3 d4 : Digit) : Nat :=
  d0.val * 85 ^ 4 + d1.val * 85 ^ 3 + d2.val * 85 ^ 2 + d3.val * 85 + d4.val

/-- `DecBlock` (R122): the four low bytes of the sum. A sum of 2^32 or more wraps (decision D7, log entry 9). -/
def decBlock (d0 d1 d2 d3 d4 : Digit) : List Byte := bytes4 (val5 d0 d1 d2 d3 d4)

/-- `PAD_DIGIT` (R8), the symbol `~`. -/
def padDigit : Digit := 84

/-- `DecTail(t)` (R123): the missing digits are the pad digit, and the first `m - 1` bytes are kept. -/
def decTail (t : List Digit) : List Byte :=
  (decBlock (t.getD 0 padDigit) (t.getD 1 padDigit) (t.getD 2 padDigit) (t.getD 3 padDigit)
    (t.getD 4 padDigit)).take (t.length - 1)

/-- The bytes of a digit sequence (R126): consecutive groups of five, then the tail of two to four digits.
A tail of one digit has no bytes; `decodeFrame` reports it first. -/
def decodeDigits : List Digit → List Byte
  | d0 :: d1 :: d2 :: d3 :: d4 :: rest => decBlock d0 d1 d2 d3 d4 ++ decodeDigits rest
  | [] => []
  | t => decTail t

/-- The symbol positions of a frame: every character but whitespace (R120). -/
def symbolPositions (cs : List Byte) : List Byte := cs.filter fun c => !isWS c

/-- `Decode(cs)` (R126): the first invalid character, then the one-symbol tail, then the bytes. -/
def decodeFrame (cs : List Byte) : DecResult :=
  let s := symbolPositions cs
  match s.find? fun c => (c2d c).isNone with
  | some c => .invalidCharacter c
  | none =>
    let ds := s.filterMap c2d
    if ds.length % 5 = 1 then .unexpectedEof else .ok (decodeDigits ds)

/-- `DEC_PUSH c` (R131): ignored after a failure, whitespace skipped, the first invalid character latched with
the frame's bytes dropped, and the fifth digit of a group converting it in the same command. -/
def execDecPush (c : Byte) (s : State) : Result :=
  unlessFaulted s fun s =>
    if s.decFailed then .next s
    else if isWS c then .next s
    else
      match c2d c with
      | none => .next ((s.setDecLatch true c).setDecoder [] [])
      | some d =>
        match s.decAcc ++ [d] with
        | [d0, d1, d2, d3, d4] => growDecOut (decBlock d0 d1 d2 d3 d4) (s.setDecoder [] s.decOut)
        | acc => .next (s.setDecoder acc s.decOut)

/-- The tail that `DEC_END` adds to `DEC_OUT` when two digits or more are left (R132). -/
def growDecTail (s : State) : Result :=
  if 2 ≤ s.decAcc.length then growDecOut (decTail s.decAcc) s else .next s

/-- The delivery of R132: appends the result and puts the decoder back to frame start. -/
def deliverDec (r : DecResult) (s : State) : Result :=
  andThen (appendDecRes r s) fun s => .next ((s.setDecoder [] []).setDecLatch false 0x00)

/-- `DEC_END` (R132): an invalid character first, then a one-symbol tail, then the frame's bytes. -/
def execDecEnd (s : State) : Result :=
  unlessFaulted s fun s =>
    if s.decFailed then deliverDec (.invalidCharacter s.decErrChar) s
    else if s.decAcc.length = 1 then deliverDec .unexpectedEof s
    else andThen (growDecTail s) fun s => deliverDec (.ok s.decOut) s

end Sys2Proof.Machine
end

