-- ==== Sys2Proof/Machine/Encoder.lean ====
section
/-! DEFINITION. The block encoder of 41_encoder.md: the pure functions `Digits5`, `EncBlock`, `EncTail` and
`Encode` (rules R100 to R104) and the commands `ENC_PUSH` and `ENC_END` (R108 and R109). -/

namespace Sys2Proof.Machine

/-- `Digits5(v)` (R100): the five base-85 digits of a block value, most significant first. -/
def digits5 (v : Nat) : List Digit :=
  [digitOf (v / 85 ^ 4), digitOf (v / 85 ^ 3), digitOf (v / 85 ^ 2), digitOf (v / 85), digitOf v]

/-- `EncBlock` (R102): the five symbols of a full block. -/
def encBlock (b0 b1 b2 b3 : Byte) : List Byte := (digits5 (pack4 b0 b1 b2 b3)).map d2c

/-- `EncTail(t)` (R103): the tail is padded with 0x00 on the right, and the first `n + 1` symbols are kept. -/
def encTail (t : List Byte) : List Byte :=
  (encBlock (t.getD 0 0x00) (t.getD 1 0x00) (t.getD 2 0x00) (t.getD 3 0x00)).take (t.length + 1)

/-- `Encode(bs)` (R104): consecutive blocks of four bytes from the start of the frame, then the tail. -/
def encodeFrame : List Byte → List Byte
  | b0 :: b1 :: b2 :: b3 :: rest => encBlock b0 b1 b2 b3 ++ encodeFrame rest
  | [] => []
  | t => encTail t

/-- `ENC_PUSH b` (R108): the fourth byte of a group converts the block in the same command. -/
def execEncPush (b : Byte) (s : State) : Result :=
  unlessFaulted s fun s =>
    match s.encAcc ++ [b] with
    | [b0, b1, b2, b3] => growEncOut (encBlock b0 b1 b2 b3) (s.setEncoder [] s.encOut)
    | acc => .next (s.setEncoder acc s.encOut)

/-- The tail that `ENC_END` adds to `ENC_OUT`, none when the accumulator is empty (R109). -/
def growEncTail (s : State) : Result :=
  if s.encAcc.length = 0 then .next s else growEncOut (encTail s.encAcc) s

/-- `ENC_END` (R109): adds the tail, delivers `ENC_OUT` whole and goes back to frame start. -/
def execEncEnd (s : State) : Result :=
  unlessFaulted s fun s =>
    andThen (growEncTail s) fun s =>
      andThen (appendEncRes s.encOut s) fun s => .next (s.setEncoder [] [])

end Sys2Proof.Machine
end

