-- ==== Sys2Proof/Machine/Mapper.lean ====
section
/-! DEFINITION. The mapper commands `MAP_D2C` and `MAP_C2D` (40_alphabet.md rules R90 and R91). -/

namespace Sys2Proof.Machine

/-- `MAP_D2C d` (R90). An operand of 85 or more raises DIGIT_RANGE on the command's word (R63, log entry 7). -/
def execMapD2C (d : Byte) (s : State) : Result :=
  unlessFaulted s fun s =>
    match operandDigit d with
    | some d' => appendLutRes (.sym (d2c d')) s
    | none => raiseFault .digitRange (encode (.mapD2C d)) s

/-- `MAP_C2D c` (R91): a character without a digit value is a result, not a fault. -/
def execMapC2D (c : Byte) (s : State) : Result :=
  unlessFaulted s fun s =>
    match c2d c with
    | some d => appendLutRes (.digit d) s
    | none => appendLutRes (.noDigit c) s

end Sys2Proof.Machine
end

