-- ==== Sys2Proof/Machine/Dispatch.lean ====
section
/-! DEFINITION. The meaning of each command of 30_encoding.md rule R62, one arm per constructor. -/

namespace Sys2Proof.Machine

def exec (i : Instr) (s : State) : Host.Outcome State Fault Refusal :=
  match i with
  | .encPush b => Sys2Proof.Machine.execEncPush b s
  | .encEnd => Sys2Proof.Machine.execEncEnd s
  | .decPush c => Sys2Proof.Machine.execDecPush c s
  | .decEnd => Sys2Proof.Machine.execDecEnd s
  | .mapD2C d => Sys2Proof.Machine.execMapD2C d s
  | .mapC2D c => Sys2Proof.Machine.execMapC2D c s

end Sys2Proof.Machine
end

