-- ==== Sys2Proof/Machine/Flags.lean ====
section
/-! DEFINITION. The numeric codes of causes and results (R25, R153) and the two words the host reads, `STATUS`
and `FAULTINFO` (10_state.md rules R28 and R29), computed from the state at the time of the read. -/

namespace Sys2Proof.Machine

/-- The 2-bit code of `FAULT_CAUSE` (R153). -/
def FaultCause.code : FaultCause → BitVec 2
  | .noFault => 0
  | .illegalOpcode => 1
  | .reservedField => 2
  | .digitRange => 3

/-- The status code of a decoder result (R25, R150). -/
def DecResult.code : DecResult → Nat
  | .ok _ => 0
  | .invalidCharacter _ => 1
  | .unexpectedEof => 2

/-- The kind code of a mapper result (R25). -/
def LutResult.code : LutResult → Nat
  | .sym _ => 0
  | .digit _ => 1
  | .noDigit _ => 2

/-- `STATUS` (R28), its fields from bit 31 down: reserved, `DEC_ERRCHAR`, reserved, `DEC_FAILED`, `DEC_CNT`,
`ENC_CNT`, `FAULT_CAUSE`, `FAULT`. A count that no run reaches is cut to its field (log entry 13). -/
def State.status (s : State) : StatusWord :=
  (0 : BitVec 8) ++ s.decErrChar ++ (0 : BitVec 7) ++ BitVec.ofBool s.decFailed ++
    BitVec.ofNat 3 s.decAcc.length ++ BitVec.ofNat 2 s.encAcc.length ++
    s.faultCause.code ++ BitVec.ofBool s.fault

/-- `FAULTINFO` (R29): `FAULT_WORD` in bits 15:0, the other bits 0. -/
def State.faultInfo (s : State) : StatusWord := (0 : BitVec 16) ++ s.faultWord

end Sys2Proof.Machine
end

