-- ==== Sys2Proof/Machine/HostPort.lean ====
section
/-! DEFINITION. What each host action of 20_memory.md rule R56 does to the block and what the host gets back:
executing a command word (30_encoding.md rule R63), the reads, and reset (70_reset_and_hazards.md rule R170). -/

namespace Sys2Proof.Machine

/-- `Execute(w)` (R63): discarded by a faulted block, a fault for a word that spells no command, else the
command's meaning. -/
def execute (w : CmdWord) (s : State) : Result :=
  unlessFaulted s fun s =>
    match decode w with
    | .error e => raiseFault (faultCauseOf e) w s
    | .ok i => exec i s

/-- The block after reset (R170), which clears the logs and aborts open frames with no result (R171, R172).
The capacities and what the host still means to do are not the block's, and stay. -/
def State.afterReset (s : State) : State := (State.resetWith s.caps).setPending s.pending

/-- One more result of a log taken. -/
def ReadCounts.bump (r : ReadCounts) : LogName → ReadCounts
  | .enc => { r with enc := r.enc + 1 }
  | .dec => { r with dec := r.dec + 1 }
  | .lut => { r with lut := r.lut + 1 }

/-- The host takes the oldest unread result, and the block records nothing of it (R56). With no unread result
there is nothing to take (DESIGN CHOICE, log entry 5). -/
def State.takeOldest (l : LogName) (s : State) : State :=
  if s.unread l = 0 then s else s.setReads (s.reads.bump l)

/-- What one host action does. A read of `STATUS` or `FAULTINFO` has no side effect (R29). -/
def perform (a : HostAction) (s : State) : Result :=
  match a with
  | .command w => execute w s
  | .readStatus => .next s
  | .readFaultInfo => .next s
  | .readLog l => .next (s.takeOldest l)
  | .assertReset => .next s.afterReset

/-- What the host gets back from an action (R56); a command and reset give nothing directly. -/
inductive Reply where
  | nothing
  | word (w : StatusWord)
  | encResult (r : Option (List Byte))
  | decResult (r : Option DecResult)
  | lutResult (r : Option LutResult)
deriving DecidableEq, Repr

/-- The value an action gives the host in a state: the status words of R28 and R29, or a log's oldest unread
result, `none` when it has none. A faulted block answers as well (R155). -/
def replyTo (a : HostAction) (s : State) : Reply :=
  match a with
  | .command _ => .nothing
  | .readStatus => .word s.status
  | .readFaultInfo => .word s.faultInfo
  | .readLog .enc => .encResult s.encRes[s.reads.enc]?
  | .readLog .dec => .decResult s.decRes[s.reads.dec]?
  | .readLog .lut => .lutResult s.lutRes[s.reads.lut]?
  | .assertReset => .nothing

/-- One step: the oldest pending host action is taken from the front and performed. With nothing pending the
block waits unchanged (DEDUCED, log entry 2). -/
def performNext (s : State) : Result :=
  match s.pending with
  | [] => .next s
  | a :: rest => perform a (s.setPending rest)

/-- The state in which the host's next action is the command word of `nbits` bits with value `w`. -/
def State.withCommandFirst (s : State) (nbits w : Nat) : State :=
  s.setPending (.command (BitVec.ofNat 16 (w % 2 ^ nbits)) :: s.pending)

end Sys2Proof.Machine
end

