-- ==== Sys2Proof/Machine/Step.lean ====
section
/-! DEFINITION. The step of the machine: one host action, performed whole (20_memory.md rules R48 and R50). -/

namespace Sys2Proof.Machine

/-- One step of the machine. -/
def step (s : State) : Host.Outcome State Fault Refusal := performNext s

/-- `s` with a command word placed where the next step takes it: at the front of the host's actions
(log entry 1). -/
def State.withFetchWord (s : State) (nbits w : Nat) : State := s.withCommandFirst nbits w

end Sys2Proof.Machine
end

