-- ==== Sys2Proof/Machine/Assembler.lean ====
section
/-! DEFINITION. The assembler syntax of 30_encoding.md rules R66 and R67: one line of text to the command words it
stands for, and the pseudo-instructions. What R66 leaves open (blanks between parts, the case of letters, a lone
backslash, operands above 0xFF, a line with no command) is a DESIGN CHOICE, log entry 12. -/

namespace Sys2Proof.Machine

/-- `ENCODE_FRAME` (R67): one `ENC_PUSH` per byte, then `ENC_END`. -/
def encodeFrameCommands (bs : List Byte) : List Instr := bs.map .encPush ++ [.encEnd]

/-- `DECODE_FRAME` (R67): one `DEC_PUSH` per character, then `DEC_END`. -/
def decodeFrameCommands (cs : List Byte) : List Instr := cs.map .decPush ++ [.decEnd]

/-- The mnemonics of R62. -/
def mnemonicOf : Opcode → List Char
  | .encPush => ['E', 'N', 'C', '_', 'P', 'U', 'S', 'H']
  | .encEnd => ['E', 'N', 'C', '_', 'E', 'N', 'D']
  | .decPush => ['D', 'E', 'C', '_', 'P', 'U', 'S', 'H']
  | .decEnd => ['D', 'E', 'C', '_', 'E', 'N', 'D']
  | .mapD2C => ['M', 'A', 'P', '_', 'D', '2', 'C']
  | .mapC2D => ['M', 'A', 'P', '_', 'C', '2', 'D']

/-- The names of the two pseudo-instructions (R67). -/
def encodeFrameName : List Char := ['E', 'N', 'C', 'O', 'D', 'E', '_', 'F', 'R', 'A', 'M', 'E']

/-- The names of the two pseudo-instructions (R67). -/
def decodeFrameName : List Char := ['D', 'E', 'C', 'O', 'D', 'E', '_', 'F', 'R', 'A', 'M', 'E']

/-- The opcode a mnemonic names. -/
def opcodeNamed (name : List Char) : Option Opcode :=
  [Opcode.encPush, .encEnd, .decPush, .decEnd, .mapD2C, .mapC2D].find? fun o => mnemonicOf o == name

def isBlank (c : Char) : Bool := c == ' ' || c == '\t'

def skipBlanks (cs : List Char) : List Char := cs.dropWhile isBlank

/-- The text after the last operand: blanks, then nothing or a comment that starts with `;`. -/
def endsLine (cs : List Char) : Bool :=
  match skipBlanks cs with
  | [] => true
  | c :: _ => c == ';'

/-- The value of a digit of a number in base 10 or 16. -/
def numeral (base : Nat) (c : Char) : Option Nat :=
  let n := c.toNat
  let v :=
    if 0x30 ≤ n ∧ n ≤ 0x39 then n - 0x30
    else if 0x41 ≤ n ∧ n ≤ 0x46 then n - 0x41 + 10
    else if 0x61 ≤ n ∧ n ≤ 0x66 then n - 0x61 + 10
    else base
  if v < base then some v else none

/-- Reads numerals onto the value `acc` as far as they go. -/
def readNumerals (base acc : Nat) : List Char → Nat × List Char
  | [] => (acc, [])
  | c :: cs =>
    match numeral base c with
    | some v => readNumerals base (acc * base + v) cs
    | none => (acc, c :: cs)

/-- Reads a number of one numeral or more. -/
def readNumber (base : Nat) : List Char → Option (Nat × List Char)
  | [] => none
  | c :: cs => (numeral base c).map fun v => readNumerals base v cs

/-- The escapes of R67: `\n`, `\v`, `\r` and `\t`. -/
def escapeCode (c : Char) : Option Nat :=
  if c == 'n' then some 0x0A
  else if c == 'v' then some 0x0B
  else if c == 'r' then some 0x0D
  else if c == 't' then some 0x09
  else none

/-- One character between quotes, as its ASCII code: an escape, or the character itself. A backslash that begins
no escape stands for itself. -/
def readCharCode : List Char → Option (Nat × List Char)
  | [] => none
  | c :: cs =>
    if c == '\\' then
      match cs with
      | e :: cs' =>
        match escapeCode e with
        | some n => some (n, cs')
        | none => some (0x5C, cs)
      | [] => some (0x5C, [])
    else if c.toNat < 0x80 then some (c.toNat, cs)
    else none

/-- An operand: a hexadecimal number, a decimal number or a character literal (R66). -/
def readOperand : List Char → Option (Nat × List Char)
  | '0' :: 'x' :: cs => readNumber 16 cs
  | '\'' :: cs =>
    match readCharCode cs with
    | some (n, '\'' :: rest) => some (n, rest)
    | _ => none
  | cs => readNumber 10 cs

/-- An operand as the 8 bits it takes in a word; an operand of more than 8 bits is rejected. -/
def readByte (cs : List Char) : Option (Byte × List Char) :=
  match readOperand cs with
  | some (n, rest) => if n < 256 then some (BitVec.ofNat 8 n, rest) else none
  | none => none

/-- The elements of a bracketed list after its first: a comma and an operand each, then the closing bracket.
`fuel` bounds the number of elements. -/
def readListRest : Nat → List Char → Option (List Byte × List Char)
  | 0, _ => none
  | fuel + 1, cs =>
    match skipBlanks cs with
    | ']' :: rest => some ([], rest)
    | ',' :: rest =>
      match readByte (skipBlanks rest) with
      | some (b, rest') => (readListRest fuel rest').map fun (bs, last) => (b :: bs, last)
      | none => none
    | _ => none

/-- A bracketed list of operands, after its opening bracket. -/
def readList (cs : List Char) : Option (List Byte × List Char) :=
  match skipBlanks cs with
  | ']' :: rest => some ([], rest)
  | cs' =>
    match readByte cs' with
    | some (b, rest) => (readListRest (rest.length + 1) rest).map fun (bs, last) => (b :: bs, last)
    | none => none

/-- The characters of a string, after its opening quote. `fuel` bounds their number. -/
def readString : Nat → List Char → Option (List Byte × List Char)
  | 0, _ => none
  | _ + 1, '"' :: rest => some ([], rest)
  | fuel + 1, cs =>
    match readCharCode cs with
    | some (n, rest) => (readString fuel rest).map fun (bs, last) => (BitVec.ofNat 8 n :: bs, last)
    | none => none

/-- The operand of a pseudo-instruction: a list of operands or a string (R67). -/
def readFrame : List Char → Option (List Byte × List Char)
  | '[' :: cs => readList cs
  | '"' :: cs => readString (cs.length + 1) cs
  | _ => none

/-- The words of one command (R66). -/
def assembleCommand (o : Opcode) (cs : List Char) : Option (List CmdWord) :=
  if o.takesOperand then
    match readByte (skipBlanks cs) with
    | some (b, rest) => if endsLine rest then some [commandWord o b] else none
    | none => none
  else if endsLine cs then some [commandWord o 0x00]
  else none

/-- The words of one command or pseudo-instruction with its line; `none` for text that is neither. -/
def assembleStatement (cs : List Char) : Option (List CmdWord) :=
  let name := cs.takeWhile fun c => !(isBlank c || c == ';')
  let rest := cs.drop name.length
  if name == encodeFrameName then
    match readFrame (skipBlanks rest) with
    | some (bs, last) => if endsLine last then some ((encodeFrameCommands bs).map encode) else none
    | none => none
  else if name == decodeFrameName then
    match readFrame (skipBlanks rest) with
    | some (bs, last) => if endsLine last then some ((decodeFrameCommands bs).map encode) else none
    | none => none
  else
    match opcodeNamed name with
    | some o => assembleCommand o rest
    | none => none

/-- The words of one line of assembler text. A line of blanks, of a comment alone or of nothing holds no command and
gives no word: R66 is silent on it (DESIGN CHOICE, log entry 12), and programs P3 and P5 of 95_test_vectors.md have
lines of a comment alone. `none` is for malformed text. -/
def assembleLine (line : List Char) : Option (List CmdWord) :=
  if endsLine line then some [] else assembleStatement (skipBlanks line)

/-- The escapes of R67, each with the code it stands for. -/
def escapeTexts : List (List Char × Byte) :=
  [(['\\', 'n'], 0x0A), (['\\', 'v'], 0x0B), (['\\', 'r'], 0x0D), (['\\', 't'], 0x09)]

/-- A text for one character code between quotes (R66, R67): the ASCII character itself, or an escape. -/
def IsCharText (t : List Char) (b : Byte) : Prop :=
  (b.toNat < 0x80 ∧ t = [Char.ofNat b.toNat]) ∨ (t, b) ∈ escapeTexts

/-- A text for one character of a string: the closing quotation mark is not one, and neither is a lone backslash,
whose reading depends on what follows it. -/
def IsStringCharText (t : List Char) (b : Byte) : Prop := IsCharText t b ∧ t ≠ ['"'] ∧ t ≠ ['\\']

/-- A text R66 takes for the operand `b`: a hexadecimal number with numerals of either case, a decimal number, each
with any leading zeros, or a character literal. -/
def IsOperandText (t : List Char) (b : Byte) : Prop :=
  (∃ k h, h.map Char.toLower = List.replicate k '0' ++ Nat.toDigits 16 b.toNat ∧ t = '0' :: 'x' :: h) ∨
  (∃ k, t = List.replicate k '0' ++ Nat.toDigits 10 b.toNat) ∨
  (∃ c, IsCharText c b ∧ t = '\'' :: c ++ ['\''])

/-- A command written as one line of R66, with the given text for its operand if it takes one. -/
def commandLine (i : Instr) (operand : List Char) : List Char :=
  if i.opcode.takesOperand then mnemonicOf i.opcode ++ ' ' :: operand else mnemonicOf i.opcode

/-- A bracketed list of operand texts (R67). -/
def listText (operands : List (List Char)) : List Char := '[' :: List.intercalate [',', ' '] operands ++ [']']

/-- A string of the given character texts (R67). -/
def stringText (chars : List (List Char)) : List Char := '"' :: chars.flatten ++ ['"']

end Sys2Proof.Machine
end

