-- ==== Sys2Proof/Safety.lean ====
section
/-! DEFINITION. The terms claims are made in: the invariant of the block between commands (10_state.md rules R21,
R22 and R27), runs of command words and of commands, a successful run and its observation
(70_reset_and_hazards.md rule R178), and which commands belong to which engine (20_memory.md rule R51). -/

namespace Sys2Proof.Machine

/-- A symbol code: one of the 85 of R81. -/
def isSymbol (c : Byte) : Bool := (c2d c).isSome

/-- The encoder between two commands: an incomplete block (R21), and whole blocks of symbols in the buffer (R110). -/
structure EncoderInv (s : State) : Prop where
  acc : s.encAcc.length ≤ 3
  out : s.encOut.length % 5 = 0
  symbols : ∀ c ∈ s.encOut, isSymbol c = true
  delivered : ∀ r ∈ s.encRes, ∀ c ∈ r, isSymbol c = true
  cap : withinCap s.caps.encFrameCap s.encOut.length = true

/-- The decoder between two commands (R22): an incomplete group; nothing held after a failure, which is an invalid
character; no error character without one; and whole groups of bytes in the buffer. -/
structure DecoderInv (s : State) : Prop where
  acc : s.decAcc.length ≤ 4
  out : s.decOut.length % 4 = 0
  failed : s.decFailed = true →
    s.decAcc = [] ∧ s.decOut = [] ∧ isWS s.decErrChar = false ∧ c2d s.decErrChar = none
  clean : s.decFailed = false → s.decErrChar = 0x00
  cap : withinCap s.caps.decFrameCap s.decOut.length = true

/-- The fault record: the word that spells no command with its cause while faulted (R153, R154), and nothing
otherwise (R20). -/
structure FaultInv (s : State) : Prop where
  clear : s.fault = false → s.faultCause = .noFault ∧ s.faultWord = 0x0000
  record : s.fault = true → ∃ e, decode s.faultWord = .error e ∧ s.faultCause = faultCauseOf e

/-- The logs: the host has taken no more results than were delivered, and no log holds more than `LOG_DEPTH`
unread ones (R57). -/
structure LogInv (s : State) : Prop where
  reads : ∀ l, s.reads.count l ≤ s.logLength l
  depth : ∀ l, withinCap s.caps.logDepth (s.unread l) = true

/-- The invariant of the machine between two host actions. -/
structure Inv (s : State) : Prop where
  encoder : EncoderInv s
  decoder : DecoderInv s
  faults : FaultInv s
  logs : LogInv s

/-- How many bytes a decoder frame puts into `DEC_OUT` (R131, R132): those of the symbols before its first invalid
character, and only those of whole groups when there is such a character, since `DEC_END` then adds no tail. -/
def bufferedBytes (cs : List Byte) : Nat :=
  let symbols := symbolPositions cs
  let k := (symbols.takeWhile isSymbol).length
  4 * (k / 5) + if k = symbols.length then k % 5 - 1 else 0

/-- Which of the three groups of R51 a command belongs to, named by the log it delivers to. -/
def engineOf : Instr → LogName
  | .encPush _ => .enc
  | .encEnd => .enc
  | .decPush _ => .dec
  | .decEnd => .dec
  | .mapD2C _ => .lut
  | .mapC2D _ => .lut

/-- Two states agree on everything one engine's commands may depend on: that engine's own elements, its log's read
count, whether the block has faulted, and the capacities. -/
def agreeOn (e : LogName) (s t : State) : Prop :=
  s.fault = t.fault ∧ s.caps = t.caps ∧ s.reads.count e = t.reads.count e ∧
    match e with
    | .enc => s.encAcc = t.encAcc ∧ s.encOut = t.encOut ∧ s.encRes = t.encRes
    | .dec => s.decAcc = t.decAcc ∧ s.decOut = t.decOut ∧ s.decFailed = t.decFailed ∧
        s.decErrChar = t.decErrChar ∧ s.decRes = t.decRes
    | .lut => s.lutRes = t.lutRes

/-- The commands of a sequence that belong to one engine, in order. -/
def onEngine (e : LogName) (is : List Instr) : List Instr := is.filter fun i => engineOf i = e

/-- The end state of a run of command words (R178), each word executed in order (R50). -/
def runWords : List CmdWord → State → Result
  | [], s => .next s
  | w :: ws, s => andThen (execute w s) (runWords ws)

/-- The end state of a run of commands. -/
def runCommands : List Instr → State → Result
  | [], s => .next s
  | i :: is, s => andThen (exec i s) (runCommands is)

/-- What the host has of a run (R178): the three logs and `STATUS`. -/
structure Observation where
  encRes : List (List Byte)
  decRes : List DecResult
  lutRes : List LutResult
  status : StatusWord
deriving DecidableEq, Repr

/-- The observation of an end state. -/
def State.observe (s : State) : Observation :=
  { encRes := s.encRes, decRes := s.decRes, lutRes := s.lutRes, status := s.status }

/-- A run of words from a state succeeds with an end state when no fault is recorded in it (R178). A run beyond a
capacity has no end state, so no claim is made of it (R57). -/
def RunSucceeds (ws : List CmdWord) (s t : State) : Prop := runWords ws s = .next t ∧ t.fault = false

/-- The encoder at frame start (R110). -/
def State.atEncStart (s : State) : Prop := s.encAcc = [] ∧ s.encOut = []

/-- The decoder at frame start (R133). -/
def State.atDecStart (s : State) : Prop := s.decAcc = [] ∧ s.decOut = [] ∧ s.decFailed = false

/-- The state with other capacities, for comparing runs. -/
def State.withCaps (c : Capacities) (s : State) : State := { s with caps := c }

end Sys2Proof.Machine
end

