-- ==== Sys2Proof/Certificates/Slice0/Obligations.lean ====
section
/-! DEFINITION. The statements about the model, for the provers. Each docstring names the rule of spec/ it
formalises; where the spec marks a rule as derived, the statement is derived from it too. -/

open Sys2Proof Sys2Proof.Machine

/-! ### Encoding and decoding -/

/-- Every command's word decodes to that command, for every operand; the one ill-formed operand range decodes to
the DIGIT_RANGE defect (30_encoding.md rules R60 to R62, R64). -/
def Obligations.DecodeOfEncodeIsCommand : Prop :=
  ∀ i : Instr,
    (i.wellFormed = true → decode (encode i) = .ok i) ∧
      (i.wellFormed = false → decode (encode i) = .error .digitRange)

/-- A word that decodes is the word of its command, and the command is well-formed, so no two words spell one
command and none of a word's bits is dropped. -/
def Obligations.EncodeOfDecodeIsWord : Prop :=
  ∀ (w : CmdWord) (i : Instr), decode w = .ok i → encode i = w ∧ i.wellFormed = true

/-- R63: the discard, the checks and the dispatch of `Execute(w)`, in the order written, with the fields of `w` as
numbers. -/
def Obligations.ExecuteChecksWordsInOrder : Prop :=
  ∀ (w : CmdWord) (s : State) (opc rsv op : Nat),
    w.toNat / 2 ^ 12 = opc → w.toNat / 2 ^ 8 % 2 ^ 4 = rsv → w.toNat % 2 ^ 8 = op →
      (s.fault = true → execute w s = .next s) ∧
      (s.fault = false →
        (opc = 0 ∨ 7 ≤ opc → execute w s = raiseFault .illegalOpcode w s) ∧
        (1 ≤ opc ∧ opc ≤ 6 →
          (rsv ≠ 0 → execute w s = raiseFault .reservedField w s) ∧
          (rsv = 0 →
            ((opc = 2 ∨ opc = 4) ∧ op ≠ 0 → execute w s = raiseFault .reservedField w s) ∧
            (opc = 5 ∧ 85 ≤ op → execute w s = raiseFault .digitRange w s) ∧
            (opc = 1 → execute w s = exec (.encPush (BitVec.ofNat 8 op)) s) ∧
            (opc = 2 ∧ op = 0 → execute w s = exec .encEnd s) ∧
            (opc = 3 → execute w s = exec (.decPush (BitVec.ofNat 8 op)) s) ∧
            (opc = 4 ∧ op = 0 → execute w s = exec .decEnd s) ∧
            (opc = 5 ∧ op < 85 → execute w s = exec (.mapD2C (BitVec.ofNat 8 op)) s) ∧
            (opc = 6 → execute w s = exec (.mapC2D (BitVec.ofNat 8 op)) s))))

/-- Words written out from R60, R62 and R66, one of each command, and one of each defect of R64. -/
def Obligations.SampleWordsDecode : Prop :=
  decode 0x1061 = .ok (.encPush 0x61) ∧ decode 0x2000 = .ok .encEnd ∧
    decode 0x3020 = .ok (.decPush 0x20) ∧ decode 0x4000 = .ok .decEnd ∧
    decode 0x5054 = .ok (.mapD2C 84) ∧ decode 0x607E = .ok (.mapC2D 0x7E) ∧
    decode 0x0000 = .error .illegalOpcode ∧ decode 0xF155 = .error .illegalOpcode ∧
    decode 0x3161 = .error .reservedField ∧ decode 0x2001 = .error .reservedField ∧
    decode 0x5055 = .error .digitRange

/-- A step whose next host action is a word that decodes is the command's own effect, with the action taken off the
front; so is the step after `withFetchWord`. The list of host actions is the model's own (DESIGN CHOICE, log entry
1). -/
def Obligations.StepRunsDecodedCommand : Prop :=
  ∀ (w : CmdWord) (i : Instr) (s : State), decode w = .ok i →
    (∀ rest, s.pending = .command w :: rest → step s = exec i { s with pending := rest }) ∧
      step (s.withFetchWord 16 w.toNat) = exec i s

/-- A command runs the same as its word is executed, in every state and for every operand. That an ill-formed
`mapD2C` as syntax means its word's fault is the model's reading (DEDUCED, log entry 7). -/
def Obligations.ExecuteOfEncodeIsExec : Prop :=
  ∀ (i : Instr) (s : State), execute (encode i) s = exec i s

/-! ### The block fault and reset -/

/-- R154: the effect of a word that spells no command, everything else unchanged; every later command has no
effect. -/
def Obligations.FaultingWordIsRecordedPrecisely : Prop :=
  ∀ (w : CmdWord) (e : DecodeError) (s : State), decode w = .error e → s.fault = false →
    execute w s =
        .next { s with fault := true, faultCause := faultCauseOf e, faultWord := w } ∧
      ∀ ws : List CmdWord, runWords (w :: ws) s =
        .next { s with fault := true, faultCause := faultCauseOf e, faultWord := w }

/-- R155: a faulted block discards every word, valid or not, so no run from it succeeds; its words and logs stay
readable; only reset leaves the state. What a read of a log gives rests on
the model's own read counts (DESIGN CHOICE, log entry 5). -/
def Obligations.FaultedBlockDiscardsCommands : Prop :=
  ∀ s : State, s.fault = true →
    (∀ ws : List CmdWord, runWords ws s = .next s ∧ ¬∃ t, RunSucceeds ws s t) ∧
    (∀ l : LogName, perform .readStatus s = .next s ∧ perform .readFaultInfo s = .next s ∧
      (∃ t, perform (.readLog l) s = .next t ∧ t.encRes = s.encRes ∧ t.decRes = s.decRes ∧ t.lutRes = s.lutRes)) ∧
    (replyTo .readStatus s = .word s.status ∧ replyTo .readFaultInfo s = .word s.faultInfo ∧
      replyTo (.readLog .enc) s = .encResult s.encRes[s.reads.enc]? ∧
      replyTo (.readLog .dec) s = .decResult s.decRes[s.reads.dec]? ∧
      replyTo (.readLog .lut) s = .lutResult s.lutRes[s.reads.lut]?) ∧
    (∀ (a : HostAction) (t : State), perform a s = .next t → (t.fault = false ↔ a = .assertReset))

/-- R27: from a faulted state the three fault elements stay through every run of the machine whose host asserts no
reset, and a reset clears them. -/
def Obligations.FaultRecordIsSticky : Prop :=
  (∀ (k : Nat) (s t : State), s.fault = true → HostAction.assertReset ∉ s.pending →
    core.run k s = .next t →
      t.fault = true ∧ t.faultCause = s.faultCause ∧ t.faultWord = s.faultWord) ∧
    ∀ (s : State) (rest : List HostAction), s.pending = .assertReset :: rest →
      ∃ t, step s = .next t ∧ t.fault = false ∧ t.faultCause = .noFault ∧ t.faultWord = 0x0000

/-- R170: every element of R20 after reset, from every state, and the two words read as 0. The constant tables are
no field of State (DESIGN CHOICE, log entry 6). -/
def Obligations.ResetClearsEveryElement : Prop :=
  ∀ s : State, ∃ t, perform .assertReset s = .next t ∧
    t.encAcc = [] ∧ t.encOut = [] ∧ t.decAcc = [] ∧ t.decOut = [] ∧
    t.encRes = [] ∧ t.decRes = [] ∧ t.lutRes = [] ∧
    t.decFailed = false ∧ t.decErrChar = 0x00 ∧
    t.fault = false ∧ t.faultCause = .noFault ∧ t.faultWord = 0x0000 ∧
    t.status = 0x00000000 ∧ t.faultInfo = 0x00000000 ∧
    t.observe = State.reset.observe

/-- The state after reset meets the invariant, whatever the capacities. The capacities are the model's field
(DESIGN CHOICE, log entry 3). -/
def Obligations.ResetStateMeetsInvariant : Prop := ∀ c : Capacities, Inv (State.resetWith c)

/-- R21, R22 and the fault record of R153: every step keeps the invariant, from every state that meets it. The read
counts are the model's own (DESIGN CHOICE, log entry 5). -/
def Obligations.StepKeepsInvariant : Prop :=
  ∀ s t : State, Inv s → step s = .next t → Inv t

/-- R32: a command word writes only its own engine's elements, and only a word that spells no command writes the
fault elements. The model's own fields are never written by a word. -/
def Obligations.WordsWriteOnlyTheirEngine : Prop :=
  ∀ (w : CmdWord) (s t : State), execute w s = .next t →
    ((∀ i, decode w = .ok i → engineOf i ≠ .enc) →
      t.encAcc = s.encAcc ∧ t.encOut = s.encOut ∧ t.encRes = s.encRes) ∧
    ((∀ i, decode w = .ok i → engineOf i ≠ .dec) →
      t.decAcc = s.decAcc ∧ t.decOut = s.decOut ∧ t.decFailed = s.decFailed ∧
        t.decErrChar = s.decErrChar ∧ t.decRes = s.decRes) ∧
    ((∀ i, decode w = .ok i → engineOf i ≠ .lut) → t.lutRes = s.lutRes) ∧
    ((∃ i, decode w = .ok i) →
      t.fault = s.fault ∧ t.faultCause = s.faultCause ∧ t.faultWord = s.faultWord) ∧
    (t.reads = s.reads ∧ t.caps = s.caps ∧ t.pending = s.pending)

/-! ### The words and logs the host reads -/

/-- R28: the fields of `STATUS` as numbers, its reserved bits, and the legal values between commands, for which the
invariant is assumed. -/
def Obligations.StatusFieldsAreState : Prop :=
  (∀ s : State, Inv s →
    s.status.toNat % 2 = s.fault.toNat ∧
    (s.status.toNat / 2 ^ 1 % 2 ^ 2 = match s.faultCause with
      | .noFault => 0
      | .illegalOpcode => 1
      | .reservedField => 2
      | .digitRange => 3) ∧
    s.status.toNat / 2 ^ 3 % 2 ^ 2 = s.encAcc.length ∧
    s.status.toNat / 2 ^ 5 % 2 ^ 3 = s.decAcc.length ∧ s.decAcc.length ≤ 4 ∧
    s.status.toNat / 2 ^ 8 % 2 = s.decFailed.toNat ∧
    s.status.toNat / 2 ^ 9 % 2 ^ 7 = 0 ∧
    s.status.toNat / 2 ^ 16 % 2 ^ 8 = s.decErrChar.toNat ∧
    (s.decFailed = false → s.status.toNat / 2 ^ 16 % 2 ^ 8 = 0x00) ∧
    s.status.toNat / 2 ^ 24 = 0) ∧
  State.reset.status = 0x00000000

/-- R29: `FAULTINFO` holds `FAULT_WORD` in bits 15:0 and 0 above, reads 0 after reset, and reading either word
changes nothing. -/
def Obligations.FaultInfoHoldsFaultWord : Prop :=
  (∀ s : State, s.faultInfo.toNat % 2 ^ 16 = s.faultWord.toNat ∧ s.faultInfo.toNat / 2 ^ 16 = 0 ∧
    perform .readStatus s = .next s ∧ perform .readFaultInfo s = .next s) ∧
  State.reset.faultInfo = 0x00000000

/-- R26: a word appends at most one result to at most one log and changes no earlier one, and every other action
but reset changes no log, so every result since reset is kept. A read leaves its log whole by the model's own read
counts (DESIGN CHOICE, log entry 5). -/
def Obligations.LogsAreAppendOnly : Prop :=
  (∀ (w : CmdWord) (s t : State), execute w s = .next t →
    (t.encRes = s.encRes ∧ t.decRes = s.decRes ∧ t.lutRes = s.lutRes) ∨
    (∃ r, t.encRes = s.encRes ++ [r] ∧ t.decRes = s.decRes ∧ t.lutRes = s.lutRes) ∨
    (∃ r, t.encRes = s.encRes ∧ t.decRes = s.decRes ++ [r] ∧ t.lutRes = s.lutRes) ∨
    (∃ r, t.encRes = s.encRes ∧ t.decRes = s.decRes ∧ t.lutRes = s.lutRes ++ [r])) ∧
  (∀ (a : HostAction) (s t : State), (∀ w, a ≠ .command w) → a ≠ .assertReset → perform a s = .next t →
    t.encRes = s.encRes ∧ t.decRes = s.decRes ∧ t.lutRes = s.lutRes)

/-- The host reads a log oldest first (R56), by the model's own count of the reads (DESIGN CHOICE, log entry 5): a
read gives the first of the results not yet taken and counts it, in that log alone and with nothing else changed;
with none left it changes nothing. -/
def Obligations.LogReadsTakeOldestUnread : Prop :=
  ∀ (s : State) (l : LogName),
    (replyTo (.readLog .enc) s = .encResult (s.encRes.drop s.reads.enc).head? ∧
      replyTo (.readLog .dec) s = .decResult (s.decRes.drop s.reads.dec).head? ∧
      replyTo (.readLog .lut) s = .lutResult (s.lutRes.drop s.reads.lut).head?) ∧
    (s.unread l = 0 → perform (.readLog l) s = .next s) ∧
    (0 < s.unread l → ∃ r : ReadCounts, perform (.readLog l) s = .next { s with reads := r } ∧
      r.count l = s.reads.count l + 1 ∧ ∀ l', l' ≠ l → r.count l' = s.reads.count l')

/-! ### The alphabet mapper -/

/-- R83: `C2D` is the inverse of `D2C` on exactly the symbols, and `C2D_ROM` holds it for all 256 codes. -/
def Obligations.C2DInvertsD2C : Prop :=
  (∀ (c : Byte) (d : Digit), c2d c = some d ↔ d2c d = c) ∧
  (∀ c : Byte, c2d c = none ↔ ∀ d : Digit, d2c d ≠ c) ∧
  (c2dRom.length = 256 ∧ ∀ c : Byte, c2dRom[c.toNat]? = some (c2d c))

/-- R90 and R63: `MAP_D2C` appends the symbol of the table and changes nothing else; a digit of 85 or more raises
DIGIT_RANGE with the command's word, and a word with `RSV` != 0 raises RESERVED_FIELD. -/
def Obligations.MapD2CAppendsSymbol : Prop :=
  ∀ (d : Byte) (s : State), s.fault = false →
    (encode (.mapD2C d)).toNat = 0x5000 + d.toNat ∧
    (d.toNat < 85 → withinCap s.caps.logDepth (s.unread .lut + 1) = true →
      ∃ c, d2cRom[d.toNat]? = some c ∧
        exec (.mapD2C d) s = .next { s with lutRes := s.lutRes ++ [.sym c] }) ∧
    (85 ≤ d.toNat → execute (encode (.mapD2C d)) s =
      .next { s with fault := true, faultCause := .digitRange, faultWord := encode (.mapD2C d) }) ∧
    (∀ w : CmdWord, w.toNat / 2 ^ 12 = 5 → w.toNat / 2 ^ 8 % 2 ^ 4 ≠ 0 →
      execute w s = .next { s with fault := true, faultCause := .reservedField, faultWord := w })

/-- R91: `MAP_C2D` appends the digit, or `NoDigit` for a character that is no symbol, and changes nothing else; a
word with `RSV` != 0 raises RESERVED_FIELD. -/
def Obligations.MapC2DAppendsDigit : Prop :=
  ∀ (c : Byte) (s : State), s.fault = false →
    (encode (.mapC2D c)).toNat = 0x6000 + c.toNat ∧
    (∀ d, c2dRom[c.toNat]? = some (some d) → withinCap s.caps.logDepth (s.unread .lut + 1) = true →
      exec (.mapC2D c) s = .next { s with lutRes := s.lutRes ++ [.digit d] }) ∧
    (c2dRom[c.toNat]? = some none → withinCap s.caps.logDepth (s.unread .lut + 1) = true →
      exec (.mapC2D c) s = .next { s with lutRes := s.lutRes ++ [.noDigit c] }) ∧
    (∀ w : CmdWord, w.toNat / 2 ^ 12 = 6 → w.toNat / 2 ^ 8 % 2 ^ 4 ≠ 0 →
      execute w s = .next { s with fault := true, faultCause := .reservedField, faultWord := w })

/-! ### The block encoder -/

/-- R42 and R43: packing is the big-endian sum, unpacking is its inverse below 2^32 and keeps the low 32 bits of
any value. -/
def Obligations.PackAndBytesAreInverse : Prop :=
  (∀ b0 b1 b2 b3 : Byte,
    pack4 b0 b1 b2 b3 = b0.toNat * 2 ^ 24 + b1.toNat * 2 ^ 16 + b2.toNat * 2 ^ 8 + b3.toNat ∧
      bytes4 (pack4 b0 b1 b2 b3) = [b0, b1, b2, b3]) ∧
  (∀ v : Nat, bytes4 v = bytes4 (v % 2 ^ 32) ∧
    ∃ b0 b1 b2 b3, bytes4 v = [b0, b1, b2, b3] ∧ pack4 b0 b1 b2 b3 = v % 2 ^ 32)

/-- R101: five digits are enough, the first is at most 82, and the decoder's weighted sum gives the value back. -/
def Obligations.WeightedSumInvertsDigits : Prop :=
  ∀ v : Nat, v < 2 ^ 32 →
    ∃ d0 d1 d2 d3 d4 : Digit, digits5 v = [d0, d1, d2, d3, d4] ∧ val5 d0 d1 d2 d3 d4 = v ∧ d0.val ≤ 82

/-- R103: the tail padded with zero bytes on the right, its first `n + 1` symbols kept. -/
def Obligations.EncTailPadsWithZeroBytes : Prop :=
  ∀ (t : List Byte) (b0 b1 b2 b3 : Byte), 1 ≤ t.length → t.length ≤ 3 →
    t ++ List.replicate (4 - t.length) 0x00 = [b0, b1, b2, b3] →
      encTail t = (encBlock b0 b1 b2 b3).take (t.length + 1) ∧ (encTail t).length = t.length + 1

/-- R104: `Encode` is the loop over the whole blocks, then the tail. -/
def Obligations.EncodeIsBlockLoop : Prop :=
  ∀ bs : List Byte, encodeFrame bs =
    ((List.range (bs.length / 4)).flatMap fun k =>
      encBlock (bs.getD (4 * k) 0) (bs.getD (4 * k + 1) 0) (bs.getD (4 * k + 2) 0) (bs.getD (4 * k + 3) 0)) ++
    (if 0 < bs.length % 4 then encTail (bs.drop (4 * (bs.length / 4))) else [])

/-- R105: the length of an encoded frame. -/
def Obligations.EncodeLengthFormula : Prop :=
  ∀ bs : List Byte, (encodeFrame bs).length =
    5 * (bs.length / 4) + (if bs.length % 4 = 0 then 0 else bs.length % 4 + 1)

/-- R106: every encoded symbol is one of the 85 codes; none is whitespace or outside 0x21 to 0x7E. -/
def Obligations.EncodeStaysInAlphabet : Prop :=
  ∀ (bs : List Byte) (c : Byte), c ∈ encodeFrame bs →
    c ∈ d2cRom ∧ isWS c = false ∧ 0x21 ≤ c.toNat ∧ c.toNat ≤ 0x7E

/-- R108: `ENC_PUSH` appends the byte, converts the block on its fourth byte, and changes nothing else; a word with
`RSV` != 0 raises RESERVED_FIELD. -/
def Obligations.EncPushAppendsByte : Prop :=
  ∀ (b : Byte) (s : State), s.fault = false →
    (encode (.encPush b)).toNat = 0x1000 + b.toNat ∧
    (s.encAcc.length ≠ 3 → exec (.encPush b) s = .next { s with encAcc := s.encAcc ++ [b] }) ∧
    (∀ b0 b1 b2, s.encAcc = [b0, b1, b2] → withinCap s.caps.encFrameCap (s.encOut.length + 5) = true →
      exec (.encPush b) s =
        .next { s with encAcc := [], encOut := s.encOut ++ encBlock b0 b1 b2 b }) ∧
    (∀ w : CmdWord, w.toNat / 2 ^ 12 = 1 → w.toNat / 2 ^ 8 % 2 ^ 4 ≠ 0 →
      execute w s = .next { s with fault := true, faultCause := .reservedField, faultWord := w })

/-- R109: `ENC_END` adds the tail, delivers the frame's symbols whole and puts the encoder back to frame start;
nothing else changes. A word with `RSV` != 0 or an operand raises RESERVED_FIELD. -/
def Obligations.EncEndDeliversFrame : Prop :=
  ∀ (s : State) (out : List Byte), s.fault = false →
    (if s.encAcc.length = 0 then s.encOut else s.encOut ++ encTail s.encAcc) = out →
    (encode .encEnd).toNat = 0x2000 ∧
    ((0 < s.encAcc.length → withinCap s.caps.encFrameCap out.length = true) →
      withinCap s.caps.logDepth (s.unread .enc + 1) = true →
      exec .encEnd s = .next { s with encRes := s.encRes ++ [out], encOut := [], encAcc := [] }) ∧
    (∀ w : CmdWord, w.toNat / 2 ^ 12 = 2 → w.toNat % 2 ^ 12 ≠ 0 →
      execute w s = .next { s with fault := true, faultCause := .reservedField, faultWord := w })

/-- R110: during a frame the buffer holds the code of the whole blocks pushed so far and the accumulator the rest,
with the commands of the other engines in between. -/
def Obligations.EncoderTracksOpenFrame : Prop :=
  ∀ (is : List Instr) (bs : List Byte) (s t : State),
    s.atEncStart → onEngine .enc is = bs.map .encPush →
    runCommands is s = .next t → t.fault = false →
      t.encOut = encodeFrame (bs.take (4 * (bs.length / 4))) ∧
        t.encAcc = bs.drop (4 * (bs.length / 4)) ∧ t.encRes = s.encRes

/-- R110: from frame start, `ENC_END` delivers exactly `Encode` of the bytes pushed, with the commands of the other
engines in between. -/
def Obligations.EncoderFrameIsEncode : Prop :=
  ∀ (is : List Instr) (bs : List Byte) (s t : State),
    s.atEncStart → onEngine .enc is = bs.map .encPush →
    runCommands (is ++ [.encEnd]) s = .next t → t.fault = false →
      t.encRes = s.encRes ++ [encodeFrame bs] ∧ t.atEncStart

/-- R107 and R110: from frame start, every byte sequence whose code fits runs to its end without a fault, and the
block differs only by the delivered result. The capacities are the model's field (DESIGN CHOICE, log entries 3 and
4). -/
def Obligations.EncoderFrameCompletes : Prop :=
  ∀ (bs : List Byte) (s : State), s.fault = false → s.atEncStart →
    withinCap s.caps.encFrameCap (encodeFrame bs).length = true →
    withinCap s.caps.logDepth (s.unread .enc + 1) = true →
      runCommands (encodeFrameCommands bs) s = .next { s with encRes := s.encRes ++ [encodeFrame bs] }

/-! ### The block decoder -/

/-- R122: a full group gives the four low bytes of the exact sum, so a sum of 2^32 or more wraps (the spec's
decision D7, log entry 9). -/
def Obligations.DecBlockWrapsAt32Bits : Prop :=
  ∀ d0 d1 d2 d3 d4 : Digit,
    decBlock d0 d1 d2 d3 d4 = bytes4 (val5 d0 d1 d2 d3 d4) ∧
    decBlock d0 d1 d2 d3 d4 = bytes4 (val5 d0 d1 d2 d3 d4 % 2 ^ 32) ∧
    ∃ b0 b1 b2 b3, decBlock d0 d1 d2 d3 d4 = [b0, b1, b2, b3] ∧
      pack4 b0 b1 b2 b3 =
        (d0.val * 52200625 + d1.val * 614125 + d2.val * 7225 + d3.val * 85 + d4.val) % 4294967296

/-- R123: the tail filled with digit 84 on the right, its first `m - 1` bytes kept. -/
def Obligations.DecTailPadsWithMaximumDigit : Prop :=
  ∀ (t : List Digit) (d0 d1 d2 d3 d4 : Digit), 2 ≤ t.length → t.length ≤ 4 →
    t ++ List.replicate (5 - t.length) 84 = [d0, d1, d2, d3, d4] →
      decTail t = (bytes4 (val5 d0 d1 d2 d3 d4)).take (t.length - 1) ∧
        (decTail t).length = t.length - 1

/-- R126: `Decode` of a frame, by its characters that are not one of the four whitespace codes: the first of them
that is no symbol, else a lone last symbol, else the bytes of the loop over the groups and of the tail. -/
def Obligations.DecodeFollowsFrameRule : Prop :=
  ∀ (cs s : List Byte), cs.filter (fun c => c ∉ [0x20, 0x0A, 0x0B, 0x0D]) = s →
    (∀ (before after : List Byte) (c : Byte), s = before ++ c :: after → c ∉ d2cRom →
      (∀ b ∈ before, b ∈ d2cRom) → decodeFrame cs = .invalidCharacter c) ∧
    (∀ ds : List Digit, s = ds.map d2c →
      (ds.length % 5 = 1 → decodeFrame cs = .unexpectedEof) ∧
      (ds.length % 5 ≠ 1 → decodeFrame cs = .ok
        (((List.range (ds.length / 5)).flatMap fun k =>
          decBlock (ds.getD (5 * k) 0) (ds.getD (5 * k + 1) 0) (ds.getD (5 * k + 2) 0) (ds.getD (5 * k + 3) 0)
            (ds.getD (5 * k + 4) 0)) ++
        (if 2 ≤ ds.length % 5 then decTail (ds.drop (5 * (ds.length / 5))) else []))))

/-- R128: the length of a decoded frame of `K` symbols. -/
def Obligations.DecodeLengthFormula : Prop :=
  ∀ (cs bs : List Byte), decodeFrame cs = .ok bs →
    bs.length = 4 * ((symbolPositions cs).length / 5) +
      (if (symbolPositions cs).length % 5 = 0 then 0 else (symbolPositions cs).length % 5 - 1)

/-- R130: whitespace anywhere in a frame does not change the result, be it bytes or an error. -/
def Obligations.WhitespaceDoesNotMatter : Prop :=
  ∀ (xs ws ys : List Byte), (∀ c ∈ ws, isWS c = true) →
    decodeFrame (xs ++ ws ++ ys) = decodeFrame (xs ++ ys)

/-- R129: decoding an encoded frame gives its bytes back, whatever whitespace is put into it. -/
def Obligations.DecodeInvertsEncode : Prop :=
  ∀ (bs cs : List Byte), symbolPositions cs = encodeFrame bs → decodeFrame cs = .ok bs

/-- R131: the five cases of `DEC_PUSH`, each with everything it leaves unchanged; a word with `RSV` != 0 raises
RESERVED_FIELD. -/
def Obligations.DecPushTakesCharacter : Prop :=
  ∀ (c : Byte) (s : State), s.fault = false →
    (encode (.decPush c)).toNat = 0x3000 + c.toNat ∧
    (s.decFailed = true → exec (.decPush c) s = .next s) ∧
    (s.decFailed = false → c ∈ [0x20, 0x0A, 0x0B, 0x0D] → exec (.decPush c) s = .next s) ∧
    (s.decFailed = false → c ∉ [0x20, 0x0A, 0x0B, 0x0D] → c2dRom[c.toNat]? = some none →
      exec (.decPush c) s =
        .next { s with decFailed := true, decErrChar := c, decAcc := [], decOut := [] }) ∧
    (∀ d, s.decFailed = false → c2dRom[c.toNat]? = some (some d) →
      (s.decAcc.length ≠ 4 → exec (.decPush c) s = .next { s with decAcc := s.decAcc ++ [d] }) ∧
      (∀ d0 d1 d2 d3, s.decAcc = [d0, d1, d2, d3] →
        withinCap s.caps.decFrameCap (s.decOut.length + 4) = true →
        exec (.decPush c) s =
          .next { s with decAcc := [], decOut := s.decOut ++ decBlock d0 d1 d2 d3 d })) ∧
    (∀ w : CmdWord, w.toNat / 2 ^ 12 = 3 → w.toNat / 2 ^ 8 % 2 ^ 4 ≠ 0 →
      execute w s = .next { s with fault := true, faultCause := .reservedField, faultWord := w })

/-- R132: the three results of `DEC_END`; the decoder goes back to its reset state apart from its log, and nothing
else changes. A word with `RSV` != 0 or an operand raises RESERVED_FIELD. -/
def Obligations.DecEndDeliversResult : Prop :=
  ∀ (s : State) (r : DecResult) (out : List Byte), s.fault = false →
    (if 2 ≤ s.decAcc.length then s.decOut ++ decTail s.decAcc else s.decOut) = out →
    (if s.decFailed = true then .invalidCharacter s.decErrChar
      else if s.decAcc.length = 1 then .unexpectedEof else .ok out) = r →
    (encode .decEnd).toNat = 0x4000 ∧
    ((s.decFailed = false → 2 ≤ s.decAcc.length → withinCap s.caps.decFrameCap out.length = true) →
      withinCap s.caps.logDepth (s.unread .dec + 1) = true →
      exec .decEnd s = .next { s with
        decRes := s.decRes ++ [r], decAcc := [], decOut := [], decFailed := false, decErrChar := 0x00 }) ∧
    (∀ w : CmdWord, w.toNat / 2 ^ 12 = 4 → w.toNat % 2 ^ 12 ≠ 0 →
      execute w s = .next { s with fault := true, faultCause := .reservedField, faultWord := w })

/-- R133: from frame start, `DEC_END` delivers exactly `Decode` of the characters pushed, with the commands of the
other engines in between. -/
def Obligations.DecoderFrameIsDecode : Prop :=
  ∀ (is : List Instr) (cs : List Byte) (s t : State),
    s.atDecStart → onEngine .dec is = cs.map .decPush →
    runCommands (is ++ [.decEnd]) s = .next t → t.fault = false →
      t.decRes = s.decRes ++ [decodeFrame cs] ∧ t.atDecStart ∧ t.decErrChar = 0x00

/-- R133: from frame start, every character sequence whose bytes fit into the frame buffer, however many its
characters are, runs to its end without a fault, and the block differs only by the delivered result, be it bytes or
an error. The capacities, and that a frame with an error is measured by the bytes it puts into `DEC_OUT`, are the
model's (DESIGN CHOICE, log entries 3 and 4). -/
def Obligations.DecoderFrameCompletes : Prop :=
  ∀ (cs : List Byte) (s : State), s.fault = false → s.atDecStart → s.decErrChar = 0x00 →
    withinCap s.caps.decFrameCap (bufferedBytes cs) = true →
    withinCap s.caps.logDepth (s.unread .dec + 1) = true →
      runCommands (decodeFrameCommands cs) s = .next { s with decRes := s.decRes ++ [decodeFrame cs] }

/-- R110, R129 and R133 together, on the machine: a frame encoded by one engine and pushed back through the other
delivers the bytes it began with. The capacities are the model's field (DESIGN CHOICE, log entries 3 and 4). -/
def Obligations.EnginesRoundTripFrames : Prop :=
  ∀ (bs : List Byte) (s : State), s.fault = false → s.atEncStart → s.atDecStart → s.decErrChar = 0x00 →
    withinCap s.caps.encFrameCap (encodeFrame bs).length = true →
    withinCap s.caps.decFrameCap bs.length = true →
    withinCap s.caps.logDepth (s.unread .enc + 1) = true →
    withinCap s.caps.logDepth (s.unread .dec + 1) = true →
      runCommands (encodeFrameCommands bs ++ decodeFrameCommands (encodeFrame bs)) s =
        .next { s with encRes := s.encRes ++ [encodeFrame bs], decRes := s.decRes ++ [.ok bs] }

/-! ### The whole machine -/

/-- R51: with no fault, two commands of different engines may be exchanged with no effect on any element. -/
def Obligations.EnginesDoNotInterfere : Prop :=
  ∀ (i j : Instr) (s t u : State), engineOf i ≠ engineOf j →
    exec i s = .next t → exec j t = .next u → u.fault = false →
      ∃ t', exec j s = .next t' ∧ exec i t' = .next u

/-- R2 and R32: a command's outcome for its own engine depends on that engine's elements alone; what the other
engines hold cannot be learnt from it. -/
def Obligations.EngineLearnsNothingOfOthers : Prop :=
  ∀ (i : Instr) (s s' t : State), agreeOn (engineOf i) s s' → exec i s = .next t →
    ∃ t', exec i s' = .next t' ∧ agreeOn (engineOf i) t t'

/-- R57: beyond a capacity the command is refused under the capacity's name; it is neither cut short nor wrapped.
When a capacity is compared, and what is unread, are the model's (DESIGN CHOICE, log entries 3, 4 and 5). -/
def Obligations.CapacityExcessIsRefused : Prop :=
  ∀ s : State, s.fault = false →
    (∀ b b0 b1 b2, s.encAcc = [b0, b1, b2] → withinCap s.caps.encFrameCap (s.encOut.length + 5) = false →
      exec (.encPush b) s = .refused .encFrameCapExceeded) ∧
    (0 < s.encAcc.length →
      withinCap s.caps.encFrameCap (s.encOut.length + (encTail s.encAcc).length) = false →
      exec .encEnd s = .refused .encFrameCapExceeded) ∧
    (∀ c d, c2d c = some d → s.decFailed = false → s.decAcc.length = 4 →
      withinCap s.caps.decFrameCap (s.decOut.length + 4) = false →
      exec (.decPush c) s = .refused .decFrameCapExceeded) ∧
    (s.decFailed = false → 2 ≤ s.decAcc.length →
      withinCap s.caps.decFrameCap (s.decOut.length + (decTail s.decAcc).length) = false →
      exec .decEnd s = .refused .decFrameCapExceeded) ∧
    (∀ d : Byte, d.toNat < 85 → withinCap s.caps.logDepth (s.unread .lut + 1) = false →
      exec (.mapD2C d) s = .refused (.logDepthExceeded .lut)) ∧
    (∀ c : Byte, withinCap s.caps.logDepth (s.unread .lut + 1) = false →
      exec (.mapC2D c) s = .refused (.logDepthExceeded .lut)) ∧
    ((0 < s.encAcc.length →
        withinCap s.caps.encFrameCap (s.encOut.length + (encTail s.encAcc).length) = true) →
      withinCap s.caps.logDepth (s.unread .enc + 1) = false →
      exec .encEnd s = .refused (.logDepthExceeded .enc)) ∧
    ((s.decFailed = false → 2 ≤ s.decAcc.length →
        withinCap s.caps.decFrameCap (s.decOut.length + (decTail s.decAcc).length) = true) →
      withinCap s.caps.logDepth (s.unread .dec + 1) = false →
      exec .decEnd s = .refused (.logDepthExceeded .dec))

/-- R57: a capacity changes no result. Where the bounded machine goes on, the unbounded one does the same; and the
unbounded one always goes on. The capacities are the model's field (DESIGN CHOICE, log entry 3). -/
def Obligations.CapacitiesChangeNoResult : Prop :=
  (∀ s t : State, step s = .next t →
    step (s.withCaps .unbounded) = .next (t.withCaps .unbounded)) ∧
  (∀ s : State, s.caps = .unbounded → ∃ t, step s = .next t)

/-- R50 and R178: stepping through a host's commands is the run of their words, with nothing pending at its end.
The list of host actions is the model's own (DESIGN CHOICE, log entry 1). -/
def Obligations.SteppingCommandsIsRunningWords : Prop :=
  ∀ (ws : List CmdWord) (s : State),
    core.run ws.length { s with pending := ws.map .command } = runWords ws { s with pending := [] }

/-- The words of a sequence of commands run as the commands do. -/
def Obligations.RunOfEncodedCommands : Prop :=
  ∀ (is : List Instr) (s : State), runWords (is.map encode) s = runCommands is s

/-- R178: on the unbounded machine the runs that succeed are those whose every word spells a command, from a state
without a fault; from a faulted state none succeeds. The capacities are the model's field (DESIGN CHOICE, log entry
3). -/
def Obligations.RunSucceedsIffAllWordsDecode : Prop :=
  ∀ (ws : List CmdWord) (s : State), s.caps = .unbounded →
    (s.fault = false → ((∃ t, RunSucceeds ws s t) ↔ ∀ w ∈ ws, ∃ i, decode w = .ok i)) ∧
      (s.fault = true → ¬∃ t, RunSucceeds ws s t)

/-! ### Assembler syntax -/

/-- R66: the line of every command, its operand written as a hexadecimal number, a decimal number or a character
literal, assembles to the command's word, with or without a comment after it. Blanks, the case of numerals, leading
zeros and a quote or a lone backslash in a literal are the model's (DESIGN CHOICE, log entry 12). -/
def Obligations.AssembledLineIsCommandWord : Prop :=
  ∀ (i : Instr) (operand comment : List Char), IsOperandText operand i.operand →
    assembleLine (commandLine i operand) = some [encode i] ∧
      assembleLine (commandLine i operand ++ ' ' :: ';' :: comment) = some [encode i]

/-- R67: the two pseudo-instructions, with a bracketed list of operands in any form of R66 or with a string of ASCII
characters and the four escapes, expand to one push per element and the END command. Blanks, and that a string holds
no quotation mark, are the model's (DESIGN CHOICE, log entry 12). -/
def Obligations.AssembledFrameIsPushesThenEnd : Prop :=
  ∀ (elements : List (List Char × Byte)) (texts : List (List Char)) (bs : List Byte),
    elements.map Prod.fst = texts → elements.map Prod.snd = bs →
    ((∀ x ∈ elements, IsOperandText x.1 x.2) →
      assembleLine (encodeFrameName ++ ' ' :: listText texts) =
          some (bs.map (fun b => encode (.encPush b)) ++ [encode .encEnd]) ∧
        assembleLine (decodeFrameName ++ ' ' :: listText texts) =
          some (bs.map (fun b => encode (.decPush b)) ++ [encode .decEnd])) ∧
    ((∀ x ∈ elements, IsStringCharText x.1 x.2) →
      assembleLine (encodeFrameName ++ ' ' :: stringText texts) =
          some (bs.map (fun b => encode (.encPush b)) ++ [encode .encEnd]) ∧
        assembleLine (decodeFrameName ++ ' ' :: stringText texts) =
          some (bs.map (fun b => encode (.decPush b)) ++ [encode .decEnd]))
end

