-- ==== Sys2Proof/Laws/Assembler.lean ====
section
/-! SUPPORT. What the readers of the assembler take off a text written as R66 and R67 say: one lemma per reader, cited
by the claims about assembled lines. -/

namespace Sys2Proof.Machine

/-- What may follow an operand: nothing, or a character that is no part of a number. -/
def EndsNumber (rest : List Char) : Prop :=
  rest = [] ∨ ∃ c cs, rest = c :: cs ∧ numeral 16 c = none ∧ numeral 10 c = none ∧ c ≠ 'x'

theorem endsLine_nil : endsLine [] = true := rfl

theorem endsLine_comment (cs : List Char) : endsLine (' ' :: ';' :: cs) = true := by
  simp [endsLine, skipBlanks, isBlank]

theorem endsNumber_comment (cs : List Char) : EndsNumber (' ' :: ';' :: cs) :=
  .inr ⟨_, _, rfl, by decide, by decide, by decide⟩

/-- A character that is no blank stays in front. -/
theorem skipBlanks_of_not_blank {c : Char} {cs : List Char} (h : isBlank c = false) :
    skipBlanks (c :: cs) = c :: cs := by simp [skipBlanks, h]

theorem skipBlanks_space (cs : List Char) : skipBlanks (' ' :: cs) = skipBlanks cs := by
  simp [skipBlanks, isBlank]

/-- Numerals count the same in either case. -/
theorem numeral_toLower (c : Char) : numeral 16 c.toLower = numeral 16 c := by
  by_cases h : 0x41 ≤ c.toNat ∧ c.toNat ≤ 0x5A
  · have key : ∀ n : Fin 26, numeral 16 (Char.ofNat (0x41 + n.val)).toLower = numeral 16 (Char.ofNat (0x41 + n.val)) := by
      decide
    have := key ⟨c.toNat - 0x41, by omega⟩
    rwa [show 0x41 + (c.toNat - 0x41) = c.toNat by omega, Char.ofNat_toNat] at this
  · have : c.toLower = c := by
      unfold Char.toLower
      rw [dif_neg]
      rintro ⟨h1, h2⟩
      exact h ⟨h1, h2⟩
    rw [this]

/-- A number read to its end is read off the front of any longer text. -/
theorem readNumerals_append {base acc n : Nat} {ds : List Char} (rest : List Char)
    (h : readNumerals base acc ds = (n, [])) :
    readNumerals base acc (ds ++ rest) = readNumerals base n rest := by
  induction ds generalizing acc with
  | nil => cases h; rfl
  | cons c cs ih =>
    cases hc : numeral base c with
    | none => simp [readNumerals, hc] at h
    | some v =>
      simp only [readNumerals, hc] at h
      simp only [List.cons_append, readNumerals, hc, ih h]

theorem readNumerals_of_toLower {acc n : Nat} {ds : List Char}
    (h : readNumerals 16 acc (ds.map Char.toLower) = (n, [])) : readNumerals 16 acc ds = (n, []) := by
  induction ds generalizing acc with
  | nil => exact h
  | cons c cs ih =>
    simp only [List.map_cons, readNumerals, numeral_toLower] at h ⊢
    cases hc : numeral 16 c with
    | none => simp [hc] at h
    | some v => simp only [hc] at h ⊢; exact ih h

/-- What follows a number is left as it is. -/
theorem readNumerals_of_endsNumber {base n : Nat} {rest : List Char} (hb : base = 16 ∨ base = 10)
    (h : EndsNumber rest) : readNumerals base n rest = (n, rest) := by
  rcases h with rfl | ⟨c, cs, rfl, h16, h10, -⟩
  · rfl
  · rcases hb with rfl | rfl
    · simp [readNumerals, h16]
    · simp [readNumerals, h10]

theorem readNumber_append {base n : Nat} {ds rest : List Char} (hb : base = 16 ∨ base = 10) (hne : ds ≠ [])
    (h : readNumerals base 0 ds = (n, [])) (hr : EndsNumber rest) :
    readNumber base (ds ++ rest) = some (n, rest) := by
  have hrun := readNumerals_append rest h
  rw [readNumerals_of_endsNumber hb hr] at hrun
  match ds, hne with
  | c :: cs, _ =>
    cases hc : numeral base c with
    | none => simp [readNumerals, hc] at h
    | some v =>
      simp only [List.cons_append, readNumerals, hc, Nat.zero_mul, Nat.zero_add] at hrun
      simp [readNumber, hc, hrun]

/-- Leading zeros add nothing. -/
theorem readNumerals_zeros {base : Nat} (hb : base = 16 ∨ base = 10) (k : Nat) (ds : List Char) :
    readNumerals base 0 (List.replicate k '0' ++ ds) = readNumerals base 0 ds := by
  have h0 : numeral base '0' = some 0 := by rcases hb with rfl | rfl <;> decide
  induction k with
  | zero => rfl
  | succ k ih => simp only [List.replicate_succ, List.cons_append, readNumerals, h0, Nat.zero_mul, Nat.zero_add, ih]

set_option maxRecDepth 20000 in
theorem readNumerals_digits (b : Byte) :
    readNumerals 16 0 (Nat.toDigits 16 b.toNat) = (b.toNat, []) ∧
      readNumerals 10 0 (Nat.toDigits 10 b.toNat) = (b.toNat, []) := by
  have key : ∀ n : Fin 256, readNumerals 16 0 (Nat.toDigits 16 n.val) = (n.val, []) ∧
      readNumerals 10 0 (Nat.toDigits 10 n.val) = (n.val, []) := by decide
  exact key ⟨b.toNat, b.isLt⟩

/-- A decimal number never looks like a hexadecimal number or a literal. -/
theorem readOperand_decimal {ds rest : List Char} (hd : ∀ c ∈ ds, c ≠ 'x' ∧ c ≠ '\'') (hne : ds ≠ [])
    (hr : EndsNumber rest) : readOperand (ds ++ rest) = readNumber 10 (ds ++ rest) := by
  match ds, hne with
  | c :: cs, _ =>
    have hq : c ≠ '\'' := (hd c (by simp)).2
    have hx : ∀ l, cs ++ rest ≠ 'x' :: l := by
      intro l h
      match cs with
      | [] =>
        rcases hr with rfl | ⟨c', _, rfl, -, -, hx⟩
        · cases h
        · exact hx (List.cons.inj h).1
      | c' :: cs' => exact (hd c' (by simp)).1 (List.cons.inj h).1
    rw [List.cons_append]
    unfold readOperand
    split
    · rename_i heq; exact absurd (List.cons.inj heq).2 (hx _)
    · rename_i heq; exact absurd (List.cons.inj heq).1 hq
    · rfl

/-- A text read as a number to its end holds numerals only. -/
theorem numeral_of_readNumerals {base acc n : Nat} {ds : List Char} (h : readNumerals base acc ds = (n, [])) :
    ∀ c ∈ ds, numeral base c ≠ none := by
  induction ds generalizing acc with
  | nil => simp
  | cons d ds ih =>
    cases hd : numeral base d with
    | none => simp [readNumerals, hd] at h
    | some v =>
      simp only [readNumerals, hd] at h
      intro c hc
      rcases List.mem_cons.1 hc with rfl | hc
      · simp [hd]
      · exact ih h c hc

set_option maxRecDepth 20000 in
theorem toDigits_ne_nil (b : Byte) : Nat.toDigits 10 b.toNat ≠ [] ∧ Nat.toDigits 16 b.toNat ≠ [] := by
  have key : ∀ n : Fin 256, Nat.toDigits 10 n.val ≠ [] ∧ Nat.toDigits 16 n.val ≠ [] := by decide
  exact key ⟨b.toNat, b.isLt⟩

theorem decimal_digit_chars (b : Byte) :
    ∀ c ∈ Nat.toDigits 10 b.toNat, c ≠ 'x' ∧ c ≠ '\'' ∧ c ≠ ']' ∧ isBlank c = false := by
  intro c hc
  have h := numeral_of_readNumerals (readNumerals_digits b).2 c hc
  refine ⟨?_, ?_, ?_, ?_⟩
  · rintro rfl; exact h (by decide)
  · rintro rfl; exact h (by decide)
  · rintro rfl; exact h (by decide)
  · cases hb : isBlank c with
    | false => rfl
    | true =>
      simp only [isBlank, Bool.or_eq_true, beq_iff_eq] at hb
      rcases hb with rfl | rfl <;> exact absurd (by decide) h

/-- The code of an ASCII character is the character's number. -/
theorem toNat_ofNat_ascii {n : Nat} (h : n < 0x80) : (Char.ofNat n).toNat = n := by
  have hv : n.isValidChar := .inl (by omega)
  unfold Char.ofNat
  rw [dif_pos hv]
  rfl

/-- A character text is read whole; a backslash stands for itself when no escape letter follows it. -/
theorem readCharCode_of_isCharText {t : List Char} {b : Byte} (h : IsCharText t b) (rest : List Char)
    (hr : t = ['\\'] → ∀ c cs, rest = c :: cs → escapeCode c = none) :
    readCharCode (t ++ rest) = some (b.toNat, rest) := by
  rcases h with ⟨hb, rfl⟩ | h
  · have hn := toNat_ofNat_ascii hb
    by_cases hs : Char.ofNat b.toNat = '\\'
    · rw [hs] at hn
      have hb' : b.toNat = 0x5C := hn.symm
      rw [hs] at hr ⊢
      match rest with
      | [] => simp [readCharCode, hb']
      | c :: cs => simp [readCharCode, hr rfl c cs rfl, hb']
    · simp [readCharCode, hs, hn, hb]
  · simp only [escapeTexts, List.mem_cons, Prod.mk.injEq, List.not_mem_nil, or_false] at h
    rcases h with ⟨rfl, rfl⟩ | ⟨rfl, rfl⟩ | ⟨rfl, rfl⟩ | ⟨rfl, rfl⟩ <;> simp [readCharCode, escapeCode]

/-- Every form of an operand is read whole. -/
theorem readByte_of_isOperandText {t rest : List Char} {b : Byte} (h : IsOperandText t b) (hr : EndsNumber rest) :
    readByte (t ++ rest) = some (b, rest) := by
  have hb := b.isLt
  obtain ⟨h16, h10⟩ := readNumerals_digits b
  obtain ⟨hne10, hne16⟩ := toDigits_ne_nil b
  have hch := decimal_digit_chars b
  have key : readOperand (t ++ rest) = some (b.toNat, rest) := by
    rcases h with ⟨k, hs, hlow, rfl⟩ | ⟨k, rfl⟩ | ⟨c, hc, rfl⟩
    · have hrun : readNumerals 16 0 hs = (b.toNat, []) :=
        readNumerals_of_toLower (by rw [hlow, readNumerals_zeros (.inl rfl), h16])
      have hne : hs ≠ [] := by rintro rfl; simp [hne16] at hlow
      exact readNumber_append (.inl rfl) hne hrun hr
    · have hd : ∀ c ∈ List.replicate k '0' ++ Nat.toDigits 10 b.toNat, c ≠ 'x' ∧ c ≠ '\'' := by
        intro c hc
        rcases List.mem_append.1 hc with hc | hc
        · rw [List.eq_of_mem_replicate hc]; decide
        · exact ⟨(hch c hc).1, (hch c hc).2.1⟩
      have hne : List.replicate k '0' ++ Nat.toDigits 10 b.toNat ≠ [] := by simp [hne10]
      rw [readOperand_decimal hd hne hr]
      exact readNumber_append (.inr rfl) hne (by rw [readNumerals_zeros (.inr rfl), h10]) hr
    · have hread := readCharCode_of_isCharText hc ('\'' :: rest)
        (by intro _ c cs heq; rw [← (List.cons.inj heq).1]; decide)
      have : ('\'' :: c ++ ['\'']) ++ rest = '\'' :: (c ++ '\'' :: rest) := by simp
      rw [this, readOperand, hread]
      rfl
  simp [readByte, key, hb]

/-- No form of an operand begins with a blank or a bracket. -/
theorem isOperandText_front {t : List Char} {b : Byte} (h : IsOperandText t b) :
    ∃ c cs, t = c :: cs ∧ isBlank c = false ∧ c ≠ ']' := by
  have hne10 := (toDigits_ne_nil b).1
  have hch := decimal_digit_chars b
  rcases h with ⟨k, hs, -, rfl⟩ | ⟨k, rfl⟩ | ⟨c, hc, rfl⟩
  · exact ⟨_, _, rfl, by decide, by decide⟩
  · cases k with
    | succ k => exact ⟨_, _, rfl, by decide, by decide⟩
    | zero =>
      obtain ⟨c, cs, hcs⟩ := List.exists_cons_of_ne_nil hne10
      exact ⟨c, cs, by simp [hcs], (hch c (by simp [hcs])).2.2.2, (hch c (by simp [hcs])).2.2.1⟩
  · exact ⟨_, _, rfl, by decide, by decide⟩

/-- What stands after the first operand of a list, up to the closing bracket. -/
def listRestText : List (List Char) → List Char
  | [] => [']']
  | t :: ts => ',' :: ' ' :: t ++ listRestText ts

theorem listText_nil : listText [] = ['[', ']'] := rfl

theorem listText_cons (t : List Char) (ts : List (List Char)) :
    listText (t :: ts) = '[' :: (t ++ listRestText ts) := by
  induction ts generalizing t with
  | nil => simp [listText, listRestText, List.intercalate]
  | cons t' ts ih =>
    have := ih t'
    simp only [listText, List.intercalate, List.cons_append, List.cons.injEq, true_and] at this ⊢
    simp [listRestText, ← this, List.intersperse]

theorem endsNumber_listRestText (ts : List (List Char)) : EndsNumber (listRestText ts) := by
  cases ts with
  | nil => exact .inr ⟨_, _, rfl, by decide, by decide, by decide⟩
  | cons t ts => exact .inr ⟨_, _, rfl, by decide, by decide, by decide⟩

theorem length_lt_listRestText (ts : List (List Char)) : ts.length < (listRestText ts).length := by
  induction ts with
  | nil => simp [listRestText]
  | cons t ts ih => simp [listRestText]; omega

theorem readListRest_listRestText {elements : List (List Char × Byte)}
    (h : ∀ x ∈ elements, IsOperandText x.1 x.2) :
    ∀ fuel, elements.length < fuel →
      readListRest fuel (listRestText (elements.map Prod.fst)) = some (elements.map Prod.snd, []) := by
  induction elements with
  | nil => intro fuel hf; match fuel, hf with | f + 1, _ => rfl
  | cons x xs ih =>
    intro fuel hf
    match fuel, hf with
    | f + 1, hf =>
      have hx := h x (by simp)
      obtain ⟨c, cs, hc, hblank, -⟩ := isOperandText_front hx
      have hfront : skipBlanks (' ' :: x.1 ++ listRestText (xs.map Prod.fst)) =
          x.1 ++ listRestText (xs.map Prod.fst) := by
        rw [List.cons_append, skipBlanks_space, hc, List.cons_append, skipBlanks_of_not_blank hblank]
      simp only [List.map_cons, listRestText, List.cons_append] at hfront ⊢
      rw [readListRest, skipBlanks_of_not_blank (by decide)]
      simp only [hfront, readByte_of_isOperandText hx (endsNumber_listRestText _)]
      simp [ih (fun y hy => h y (by simp [hy])) f (by simpa using hf)]

/-- A bracketed list is read whole. -/
theorem readFrame_listText {elements : List (List Char × Byte)} (h : ∀ x ∈ elements, IsOperandText x.1 x.2) :
    readFrame (listText (elements.map Prod.fst)) = some (elements.map Prod.snd, []) := by
  cases elements with
  | nil => rfl
  | cons x xs =>
    have hx := h x (by simp)
    obtain ⟨c, cs, hc, hblank, hbr⟩ := isOperandText_front hx
    have hread := readByte_of_isOperandText hx (endsNumber_listRestText (xs.map Prod.fst))
    have hrest := readListRest_listRestText (fun y hy => h y (List.mem_cons_of_mem _ hy))
      ((listRestText (xs.map Prod.fst)).length + 1)
      (by have := length_lt_listRestText (xs.map Prod.fst); simp at this; omega)
    rw [hc, List.cons_append] at hread
    simp only [List.map_cons, listText_cons, readFrame, readList, hc, List.cons_append,
      skipBlanks_of_not_blank hblank]
    split
    · rename_i heq; exact absurd (List.cons.inj heq).1 hbr
    · simp [hread, hrest]

/-- A string is read whole. -/
theorem readString_elements {elements : List (List Char × Byte)} (h : ∀ x ∈ elements, IsStringCharText x.1 x.2) :
    ∀ fuel, elements.length < fuel →
      readString fuel ((elements.map Prod.fst).flatten ++ ['"']) = some (elements.map Prod.snd, []) := by
  induction elements with
  | nil => intro fuel hf; match fuel, hf with | f + 1, _ => rfl
  | cons x xs ih =>
    intro fuel hf
    match fuel, hf with
    | f + 1, hf =>
      obtain ⟨hx, hq, hs⟩ := h x (by simp)
      have hread := readCharCode_of_isCharText hx ((xs.map Prod.fst).flatten ++ ['"']) (fun e => absurd e hs)
      have hfront : ∀ l, x.1 ++ ((xs.map Prod.fst).flatten ++ ['"']) ≠ '"' :: l := by
        intro l heq
        rcases hx with ⟨hb, ht⟩ | hx
        · rw [ht, List.singleton_append] at heq
          exact hq (by rw [ht, (List.cons.inj heq).1])
        · simp only [escapeTexts, List.mem_cons, Prod.mk.injEq, List.not_mem_nil, or_false] at hx
          rcases hx with hx | hx | hx | hx <;> simp [hx.1] at heq
      simp only [List.map_cons, List.flatten_cons, List.append_assoc]
      unfold readString
      split
      · cases ‹_ = 0›
      · exact absurd ‹_› (hfront _)
      · rename_i heq _
        cases heq
        simp [hread, ih (fun y hy => h y (by simp [hy])) f (by simpa using hf)]

theorem readFrame_stringText {elements : List (List Char × Byte)}
    (h : ∀ x ∈ elements, IsStringCharText x.1 x.2) :
    readFrame (stringText (elements.map Prod.fst)) = some (elements.map Prod.snd, []) := by
  have hlen : ∀ xs : List (List Char × Byte), (∀ x ∈ xs, IsStringCharText x.1 x.2) →
      xs.length ≤ ((xs.map Prod.fst).flatten).length := by
    intro xs
    induction xs with
    | nil => simp
    | cons x xs ih =>
      intro h
      have h1 : 1 ≤ x.1.length := by
        rcases (h x (by simp)).1 with ⟨-, ht⟩ | hx
        · simp [ht]
        · simp only [escapeTexts, List.mem_cons, Prod.mk.injEq, List.not_mem_nil, or_false] at hx
          rcases hx with hx | hx | hx | hx <;> simp [hx.1]
      have := ih fun y hy => h y (by simp [hy])
      rw [List.map_cons, List.flatten_cons, List.length_append, List.length_cons]
      omega
  have := hlen elements h
  simp only [stringText, List.cons_append, readFrame]
  exact readString_elements h _ (by rw [List.length_append]; omega)

end Sys2Proof.Machine
end

