-- ==== Sys2Proof/Laws/Codec.lean ====
section
/-! SUPPORT. The pure functions of the codec: unpacking as division, induction on whole blocks, and the frame
functions over a split at a block boundary. -/

namespace Sys2Proof.Machine

/-- Unpacking a value divides it. -/
theorem bytes4_eq_div (v : Nat) :
    bytes4 v = [BitVec.ofNat 8 (v / 2 ^ 24), BitVec.ofNat 8 (v / 2 ^ 16), BitVec.ofNat 8 (v / 2 ^ 8),
      BitVec.ofNat 8 v] := by
  have mask : ∀ n : Nat, BitVec.ofNat 8 (n &&& 0xFF) = BitVec.ofNat 8 n := fun n => by
    apply BitVec.eq_of_toNat_eq
    have : n &&& 0xFF = n % 256 := Nat.and_two_pow_sub_one_eq_mod n 8
    simp [this]
  simp only [bytes4, mask, Nat.shiftRight_eq_div_pow]

/-- Every digit's symbol maps back to it. -/
theorem c2d_d2c (d : Digit) : c2d (d2c d) = some d := by revert d; decide

/-- No symbol is whitespace. -/
theorem isWS_d2c (d : Digit) : isWS (d2c d) = false := by revert d; decide

/-- Induction on a list by whole blocks of four from its start. -/
theorem blocks_of_four {α : Type} {P : List α → Prop} (nil : P []) (one : ∀ a, P [a]) (two : ∀ a b, P [a, b])
    (three : ∀ a b c, P [a, b, c]) (block : ∀ a b c d l, P l → P (a :: b :: c :: d :: l)) : ∀ l, P l
  | [] => nil
  | [a] => one a
  | [a, b] => two a b
  | [a, b, c] => three a b c
  | a :: b :: c :: d :: l => block a b c d l (blocks_of_four nil one two three block l)

/-- Induction on a list by whole groups of five from its start. -/
theorem groups_of_five {α : Type} {P : List α → Prop} (nil : P []) (one : ∀ a, P [a]) (two : ∀ a b, P [a, b])
    (three : ∀ a b c, P [a, b, c]) (four : ∀ a b c d, P [a, b, c, d])
    (group : ∀ a b c d e l, P l → P (a :: b :: c :: d :: e :: l)) : ∀ l, P l
  | [] => nil
  | [a] => one a
  | [a, b] => two a b
  | [a, b, c] => three a b c
  | [a, b, c, d] => four a b c d
  | a :: b :: c :: d :: e :: l => group a b c d e l (groups_of_five nil one two three four group l)

/-- A frame cut after whole blocks encodes part by part. -/
theorem encodeFrame_append {l m : List Byte} (h : l.length % 4 = 0) :
    encodeFrame (l ++ m) = encodeFrame l ++ encodeFrame m := by
  induction l using blocks_of_four with
  | nil => simp [encodeFrame]
  | one a => simp at h
  | two a b => simp at h
  | three a b c => simp at h
  | block a b c d l ih =>
    have : l.length % 4 = 0 := by simp only [List.length_cons] at h; omega
    simp only [List.cons_append, encodeFrame, ih this, List.append_assoc]

/-- A frame shorter than a block is its tail. -/
theorem encodeFrame_of_short {t : List Byte} (h : t.length ≤ 3) :
    encodeFrame t = if t = [] then [] else encTail t := by
  match t, h with
  | [], _ => simp [encodeFrame]
  | [a], _ => simp [encodeFrame]
  | [a, b], _ => simp [encodeFrame]
  | [a, b, c], _ => simp [encodeFrame]

/-- Digits cut after whole groups decode part by part. -/
theorem decodeDigits_append {l m : List Digit} (h : l.length % 5 = 0) :
    decodeDigits (l ++ m) = decodeDigits l ++ decodeDigits m := by
  induction l using groups_of_five with
  | nil => simp [decodeDigits]
  | one a => simp at h
  | two a b => simp at h
  | three a b c => simp at h
  | four a b c d => simp at h
  | group a b c d e l ih =>
    have : l.length % 5 = 0 := by simp only [List.length_cons] at h; omega
    simp only [List.cons_append, decodeDigits, ih this, List.append_assoc]

/-- Fewer than five digits are a tail. -/
theorem decodeDigits_of_short {t : List Digit} (h : t.length ≤ 4) :
    decodeDigits t = if t = [] then [] else decTail t := by
  match t, h with
  | [], _ => simp [decodeDigits]
  | [a], _ => simp [decodeDigits]
  | [a, b], _ => simp [decodeDigits]
  | [a, b, c], _ => simp [decodeDigits]
  | [a, b, c, d], _ => simp [decodeDigits]

/-- Whitespace is taken out character by character. -/
theorem symbolPositions_append (p q : List Byte) :
    symbolPositions (p ++ q) = symbolPositions p ++ symbolPositions q := by simp [symbolPositions]

end Sys2Proof.Machine
end

