-- ==== Sys2Proof/Laws/State.lean ====
section
/-! SUPPORT. What each named update of the state does to each field, one lemma per field, all by rfl. -/

namespace Sys2Proof.Machine

section setEncoder
variable (acc out : List Byte) (s : State)

@[simp] theorem setEncoder_encAcc : (s.setEncoder acc out).encAcc = acc := rfl
@[simp] theorem setEncoder_encOut : (s.setEncoder acc out).encOut = out := rfl
@[simp] theorem setEncoder_encRes : (s.setEncoder acc out).encRes = s.encRes := rfl
@[simp] theorem setEncoder_decAcc : (s.setEncoder acc out).decAcc = s.decAcc := rfl
@[simp] theorem setEncoder_decOut : (s.setEncoder acc out).decOut = s.decOut := rfl
@[simp] theorem setEncoder_decFailed : (s.setEncoder acc out).decFailed = s.decFailed := rfl
@[simp] theorem setEncoder_decErrChar : (s.setEncoder acc out).decErrChar = s.decErrChar := rfl
@[simp] theorem setEncoder_decRes : (s.setEncoder acc out).decRes = s.decRes := rfl
@[simp] theorem setEncoder_lutRes : (s.setEncoder acc out).lutRes = s.lutRes := rfl
@[simp] theorem setEncoder_fault : (s.setEncoder acc out).fault = s.fault := rfl
@[simp] theorem setEncoder_faultCause : (s.setEncoder acc out).faultCause = s.faultCause := rfl
@[simp] theorem setEncoder_faultWord : (s.setEncoder acc out).faultWord = s.faultWord := rfl
@[simp] theorem setEncoder_reads : (s.setEncoder acc out).reads = s.reads := rfl
@[simp] theorem setEncoder_caps : (s.setEncoder acc out).caps = s.caps := rfl
@[simp] theorem setEncoder_pending : (s.setEncoder acc out).pending = s.pending := rfl

end setEncoder

section setDecoder
variable (acc : List Digit) (out : List Byte) (s : State)

@[simp] theorem setDecoder_encAcc : (s.setDecoder acc out).encAcc = s.encAcc := rfl
@[simp] theorem setDecoder_encOut : (s.setDecoder acc out).encOut = s.encOut := rfl
@[simp] theorem setDecoder_encRes : (s.setDecoder acc out).encRes = s.encRes := rfl
@[simp] theorem setDecoder_decAcc : (s.setDecoder acc out).decAcc = acc := rfl
@[simp] theorem setDecoder_decOut : (s.setDecoder acc out).decOut = out := rfl
@[simp] theorem setDecoder_decFailed : (s.setDecoder acc out).decFailed = s.decFailed := rfl
@[simp] theorem setDecoder_decErrChar : (s.setDecoder acc out).decErrChar = s.decErrChar := rfl
@[simp] theorem setDecoder_decRes : (s.setDecoder acc out).decRes = s.decRes := rfl
@[simp] theorem setDecoder_lutRes : (s.setDecoder acc out).lutRes = s.lutRes := rfl
@[simp] theorem setDecoder_fault : (s.setDecoder acc out).fault = s.fault := rfl
@[simp] theorem setDecoder_faultCause : (s.setDecoder acc out).faultCause = s.faultCause := rfl
@[simp] theorem setDecoder_faultWord : (s.setDecoder acc out).faultWord = s.faultWord := rfl
@[simp] theorem setDecoder_reads : (s.setDecoder acc out).reads = s.reads := rfl
@[simp] theorem setDecoder_caps : (s.setDecoder acc out).caps = s.caps := rfl
@[simp] theorem setDecoder_pending : (s.setDecoder acc out).pending = s.pending := rfl

end setDecoder

section setDecLatch
variable (failed : Bool) (c : Byte) (s : State)

@[simp] theorem setDecLatch_encAcc : (s.setDecLatch failed c).encAcc = s.encAcc := rfl
@[simp] theorem setDecLatch_encOut : (s.setDecLatch failed c).encOut = s.encOut := rfl
@[simp] theorem setDecLatch_encRes : (s.setDecLatch failed c).encRes = s.encRes := rfl
@[simp] theorem setDecLatch_decAcc : (s.setDecLatch failed c).decAcc = s.decAcc := rfl
@[simp] theorem setDecLatch_decOut : (s.setDecLatch failed c).decOut = s.decOut := rfl
@[simp] theorem setDecLatch_decFailed : (s.setDecLatch failed c).decFailed = failed := rfl
@[simp] theorem setDecLatch_decErrChar : (s.setDecLatch failed c).decErrChar = c := rfl
@[simp] theorem setDecLatch_decRes : (s.setDecLatch failed c).decRes = s.decRes := rfl
@[simp] theorem setDecLatch_lutRes : (s.setDecLatch failed c).lutRes = s.lutRes := rfl
@[simp] theorem setDecLatch_fault : (s.setDecLatch failed c).fault = s.fault := rfl
@[simp] theorem setDecLatch_faultCause : (s.setDecLatch failed c).faultCause = s.faultCause := rfl
@[simp] theorem setDecLatch_faultWord : (s.setDecLatch failed c).faultWord = s.faultWord := rfl
@[simp] theorem setDecLatch_reads : (s.setDecLatch failed c).reads = s.reads := rfl
@[simp] theorem setDecLatch_caps : (s.setDecLatch failed c).caps = s.caps := rfl
@[simp] theorem setDecLatch_pending : (s.setDecLatch failed c).pending = s.pending := rfl

end setDecLatch

section pushEncRes
variable (r : List Byte) (s : State)

@[simp] theorem pushEncRes_encAcc : (s.pushEncRes r).encAcc = s.encAcc := rfl
@[simp] theorem pushEncRes_encOut : (s.pushEncRes r).encOut = s.encOut := rfl
@[simp] theorem pushEncRes_encRes : (s.pushEncRes r).encRes = s.encRes ++ [r] := rfl
@[simp] theorem pushEncRes_decAcc : (s.pushEncRes r).decAcc = s.decAcc := rfl
@[simp] theorem pushEncRes_decOut : (s.pushEncRes r).decOut = s.decOut := rfl
@[simp] theorem pushEncRes_decFailed : (s.pushEncRes r).decFailed = s.decFailed := rfl
@[simp] theorem pushEncRes_decErrChar : (s.pushEncRes r).decErrChar = s.decErrChar := rfl
@[simp] theorem pushEncRes_decRes : (s.pushEncRes r).decRes = s.decRes := rfl
@[simp] theorem pushEncRes_lutRes : (s.pushEncRes r).lutRes = s.lutRes := rfl
@[simp] theorem pushEncRes_fault : (s.pushEncRes r).fault = s.fault := rfl
@[simp] theorem pushEncRes_faultCause : (s.pushEncRes r).faultCause = s.faultCause := rfl
@[simp] theorem pushEncRes_faultWord : (s.pushEncRes r).faultWord = s.faultWord := rfl
@[simp] theorem pushEncRes_reads : (s.pushEncRes r).reads = s.reads := rfl
@[simp] theorem pushEncRes_caps : (s.pushEncRes r).caps = s.caps := rfl
@[simp] theorem pushEncRes_pending : (s.pushEncRes r).pending = s.pending := rfl

end pushEncRes

section pushDecRes
variable (r : DecResult) (s : State)

@[simp] theorem pushDecRes_encAcc : (s.pushDecRes r).encAcc = s.encAcc := rfl
@[simp] theorem pushDecRes_encOut : (s.pushDecRes r).encOut = s.encOut := rfl
@[simp] theorem pushDecRes_encRes : (s.pushDecRes r).encRes = s.encRes := rfl
@[simp] theorem pushDecRes_decAcc : (s.pushDecRes r).decAcc = s.decAcc := rfl
@[simp] theorem pushDecRes_decOut : (s.pushDecRes r).decOut = s.decOut := rfl
@[simp] theorem pushDecRes_decFailed : (s.pushDecRes r).decFailed = s.decFailed := rfl
@[simp] theorem pushDecRes_decErrChar : (s.pushDecRes r).decErrChar = s.decErrChar := rfl
@[simp] theorem pushDecRes_decRes : (s.pushDecRes r).decRes = s.decRes ++ [r] := rfl
@[simp] theorem pushDecRes_lutRes : (s.pushDecRes r).lutRes = s.lutRes := rfl
@[simp] theorem pushDecRes_fault : (s.pushDecRes r).fault = s.fault := rfl
@[simp] theorem pushDecRes_faultCause : (s.pushDecRes r).faultCause = s.faultCause := rfl
@[simp] theorem pushDecRes_faultWord : (s.pushDecRes r).faultWord = s.faultWord := rfl
@[simp] theorem pushDecRes_reads : (s.pushDecRes r).reads = s.reads := rfl
@[simp] theorem pushDecRes_caps : (s.pushDecRes r).caps = s.caps := rfl
@[simp] theorem pushDecRes_pending : (s.pushDecRes r).pending = s.pending := rfl

end pushDecRes

section pushLutRes
variable (r : LutResult) (s : State)

@[simp] theorem pushLutRes_encAcc : (s.pushLutRes r).encAcc = s.encAcc := rfl
@[simp] theorem pushLutRes_encOut : (s.pushLutRes r).encOut = s.encOut := rfl
@[simp] theorem pushLutRes_encRes : (s.pushLutRes r).encRes = s.encRes := rfl
@[simp] theorem pushLutRes_decAcc : (s.pushLutRes r).decAcc = s.decAcc := rfl
@[simp] theorem pushLutRes_decOut : (s.pushLutRes r).decOut = s.decOut := rfl
@[simp] theorem pushLutRes_decFailed : (s.pushLutRes r).decFailed = s.decFailed := rfl
@[simp] theorem pushLutRes_decErrChar : (s.pushLutRes r).decErrChar = s.decErrChar := rfl
@[simp] theorem pushLutRes_decRes : (s.pushLutRes r).decRes = s.decRes := rfl
@[simp] theorem pushLutRes_lutRes : (s.pushLutRes r).lutRes = s.lutRes ++ [r] := rfl
@[simp] theorem pushLutRes_fault : (s.pushLutRes r).fault = s.fault := rfl
@[simp] theorem pushLutRes_faultCause : (s.pushLutRes r).faultCause = s.faultCause := rfl
@[simp] theorem pushLutRes_faultWord : (s.pushLutRes r).faultWord = s.faultWord := rfl
@[simp] theorem pushLutRes_reads : (s.pushLutRes r).reads = s.reads := rfl
@[simp] theorem pushLutRes_caps : (s.pushLutRes r).caps = s.caps := rfl
@[simp] theorem pushLutRes_pending : (s.pushLutRes r).pending = s.pending := rfl

end pushLutRes

section setFault
variable (cause : FaultCause) (w : CmdWord) (s : State)

@[simp] theorem setFault_encAcc : (s.setFault cause w).encAcc = s.encAcc := rfl
@[simp] theorem setFault_encOut : (s.setFault cause w).encOut = s.encOut := rfl
@[simp] theorem setFault_encRes : (s.setFault cause w).encRes = s.encRes := rfl
@[simp] theorem setFault_decAcc : (s.setFault cause w).decAcc = s.decAcc := rfl
@[simp] theorem setFault_decOut : (s.setFault cause w).decOut = s.decOut := rfl
@[simp] theorem setFault_decFailed : (s.setFault cause w).decFailed = s.decFailed := rfl
@[simp] theorem setFault_decErrChar : (s.setFault cause w).decErrChar = s.decErrChar := rfl
@[simp] theorem setFault_decRes : (s.setFault cause w).decRes = s.decRes := rfl
@[simp] theorem setFault_lutRes : (s.setFault cause w).lutRes = s.lutRes := rfl
@[simp] theorem setFault_fault : (s.setFault cause w).fault = true := rfl
@[simp] theorem setFault_faultCause : (s.setFault cause w).faultCause = cause := rfl
@[simp] theorem setFault_faultWord : (s.setFault cause w).faultWord = w := rfl
@[simp] theorem setFault_reads : (s.setFault cause w).reads = s.reads := rfl
@[simp] theorem setFault_caps : (s.setFault cause w).caps = s.caps := rfl
@[simp] theorem setFault_pending : (s.setFault cause w).pending = s.pending := rfl

end setFault

section setReads
variable (r : ReadCounts) (s : State)

@[simp] theorem setReads_encAcc : (s.setReads r).encAcc = s.encAcc := rfl
@[simp] theorem setReads_encOut : (s.setReads r).encOut = s.encOut := rfl
@[simp] theorem setReads_encRes : (s.setReads r).encRes = s.encRes := rfl
@[simp] theorem setReads_decAcc : (s.setReads r).decAcc = s.decAcc := rfl
@[simp] theorem setReads_decOut : (s.setReads r).decOut = s.decOut := rfl
@[simp] theorem setReads_decFailed : (s.setReads r).decFailed = s.decFailed := rfl
@[simp] theorem setReads_decErrChar : (s.setReads r).decErrChar = s.decErrChar := rfl
@[simp] theorem setReads_decRes : (s.setReads r).decRes = s.decRes := rfl
@[simp] theorem setReads_lutRes : (s.setReads r).lutRes = s.lutRes := rfl
@[simp] theorem setReads_fault : (s.setReads r).fault = s.fault := rfl
@[simp] theorem setReads_faultCause : (s.setReads r).faultCause = s.faultCause := rfl
@[simp] theorem setReads_faultWord : (s.setReads r).faultWord = s.faultWord := rfl
@[simp] theorem setReads_reads : (s.setReads r).reads = r := rfl
@[simp] theorem setReads_caps : (s.setReads r).caps = s.caps := rfl
@[simp] theorem setReads_pending : (s.setReads r).pending = s.pending := rfl

end setReads

section setPending
variable (as : List HostAction) (s : State)

@[simp] theorem setPending_encAcc : (s.setPending as).encAcc = s.encAcc := rfl
@[simp] theorem setPending_encOut : (s.setPending as).encOut = s.encOut := rfl
@[simp] theorem setPending_encRes : (s.setPending as).encRes = s.encRes := rfl
@[simp] theorem setPending_decAcc : (s.setPending as).decAcc = s.decAcc := rfl
@[simp] theorem setPending_decOut : (s.setPending as).decOut = s.decOut := rfl
@[simp] theorem setPending_decFailed : (s.setPending as).decFailed = s.decFailed := rfl
@[simp] theorem setPending_decErrChar : (s.setPending as).decErrChar = s.decErrChar := rfl
@[simp] theorem setPending_decRes : (s.setPending as).decRes = s.decRes := rfl
@[simp] theorem setPending_lutRes : (s.setPending as).lutRes = s.lutRes := rfl
@[simp] theorem setPending_fault : (s.setPending as).fault = s.fault := rfl
@[simp] theorem setPending_faultCause : (s.setPending as).faultCause = s.faultCause := rfl
@[simp] theorem setPending_faultWord : (s.setPending as).faultWord = s.faultWord := rfl
@[simp] theorem setPending_reads : (s.setPending as).reads = s.reads := rfl
@[simp] theorem setPending_caps : (s.setPending as).caps = s.caps := rfl
@[simp] theorem setPending_pending : (s.setPending as).pending = as := rfl

end setPending

section withCaps
variable (c : Capacities) (s : State)

@[simp] theorem withCaps_encAcc : (s.withCaps c).encAcc = s.encAcc := rfl
@[simp] theorem withCaps_encOut : (s.withCaps c).encOut = s.encOut := rfl
@[simp] theorem withCaps_encRes : (s.withCaps c).encRes = s.encRes := rfl
@[simp] theorem withCaps_decAcc : (s.withCaps c).decAcc = s.decAcc := rfl
@[simp] theorem withCaps_decOut : (s.withCaps c).decOut = s.decOut := rfl
@[simp] theorem withCaps_decFailed : (s.withCaps c).decFailed = s.decFailed := rfl
@[simp] theorem withCaps_decErrChar : (s.withCaps c).decErrChar = s.decErrChar := rfl
@[simp] theorem withCaps_decRes : (s.withCaps c).decRes = s.decRes := rfl
@[simp] theorem withCaps_lutRes : (s.withCaps c).lutRes = s.lutRes := rfl
@[simp] theorem withCaps_fault : (s.withCaps c).fault = s.fault := rfl
@[simp] theorem withCaps_faultCause : (s.withCaps c).faultCause = s.faultCause := rfl
@[simp] theorem withCaps_faultWord : (s.withCaps c).faultWord = s.faultWord := rfl
@[simp] theorem withCaps_reads : (s.withCaps c).reads = s.reads := rfl
@[simp] theorem withCaps_caps : (s.withCaps c).caps = c := rfl
@[simp] theorem withCaps_pending : (s.withCaps c).pending = s.pending := rfl

end withCaps

section afterReset
variable (s : State)

@[simp] theorem afterReset_encAcc : s.afterReset.encAcc = [] := rfl
@[simp] theorem afterReset_encOut : s.afterReset.encOut = [] := rfl
@[simp] theorem afterReset_encRes : s.afterReset.encRes = [] := rfl
@[simp] theorem afterReset_decAcc : s.afterReset.decAcc = [] := rfl
@[simp] theorem afterReset_decOut : s.afterReset.decOut = [] := rfl
@[simp] theorem afterReset_decFailed : s.afterReset.decFailed = false := rfl
@[simp] theorem afterReset_decErrChar : s.afterReset.decErrChar = 0 := rfl
@[simp] theorem afterReset_decRes : s.afterReset.decRes = [] := rfl
@[simp] theorem afterReset_lutRes : s.afterReset.lutRes = [] := rfl
@[simp] theorem afterReset_fault : s.afterReset.fault = false := rfl
@[simp] theorem afterReset_faultCause : s.afterReset.faultCause = .noFault := rfl
@[simp] theorem afterReset_faultWord : s.afterReset.faultWord = 0 := rfl
@[simp] theorem afterReset_reads : s.afterReset.reads = ⟨0, 0, 0⟩ := rfl
@[simp] theorem afterReset_caps : s.afterReset.caps = s.caps := rfl
@[simp] theorem afterReset_pending : s.afterReset.pending = s.pending := rfl

end afterReset

/-- Putting back what was pending changes nothing. -/
@[simp] theorem setPending_self (s : State) : s.setPending s.pending = s := rfl

@[simp] theorem setPending_setPending (as bs : List HostAction) (s : State) :
    (s.setPending as).setPending bs = s.setPending bs := rfl

/-- Unread results under the updates that touch no log and no read count. -/
@[simp] theorem setEncoder_unread (acc out : List Byte) (s : State) (l : LogName) :
    (s.setEncoder acc out).unread l = s.unread l := by cases l <;> rfl

@[simp] theorem setDecoder_unread (acc : List Digit) (out : List Byte) (s : State) (l : LogName) :
    (s.setDecoder acc out).unread l = s.unread l := by cases l <;> rfl

@[simp] theorem setDecLatch_unread (failed : Bool) (c : Byte) (s : State) (l : LogName) :
    (s.setDecLatch failed c).unread l = s.unread l := by cases l <;> rfl

@[simp] theorem setFault_unread (cause : FaultCause) (w : CmdWord) (s : State) (l : LogName) :
    (s.setFault cause w).unread l = s.unread l := by cases l <;> rfl

@[simp] theorem setPending_unread (as : List HostAction) (s : State) (l : LogName) :
    (s.setPending as).unread l = s.unread l := by cases l <;> rfl

@[simp] theorem withCaps_unread (c : Capacities) (s : State) (l : LogName) :
    (s.withCaps c).unread l = s.unread l := by cases l <;> rfl

/-- Sizes of the logs under the appends. -/
@[simp] theorem pushEncRes_logLength_enc (r : List Byte) (s : State) :
    (s.pushEncRes r).logLength .enc = s.logLength .enc + 1 := by simp [State.logLength]

@[simp] theorem pushDecRes_logLength_dec (r : DecResult) (s : State) :
    (s.pushDecRes r).logLength .dec = s.logLength .dec + 1 := by simp [State.logLength]

@[simp] theorem pushLutRes_logLength_lut (r : LutResult) (s : State) :
    (s.pushLutRes r).logLength .lut = s.logLength .lut + 1 := by simp [State.logLength]

end Sys2Proof.Machine
end

