-- ==== Sys2Proof/Laws/Ops.lean ====
section
/-! SUPPORT. What the shared operations of Machine/Ops.lean and Machine/HostPort.lean can do, said once per
operation: an answer of `next` and the conditions it comes with. -/

namespace Sys2Proof.Machine

@[simp] theorem andThen_next (s : State) (k : State → Result) : andThen (.next s) k = k s := rfl

@[simp] theorem andThen_refused (e : Refusal) (k : State → Result) : andThen (.refused e) k = .refused e := rfl

/-- A sequence answers a next state exactly when its parts do. -/
theorem andThen_eq_next {r : Result} {k : State → Result} {t : State} :
    andThen r k = .next t ↔ ∃ s, r = .next s ∧ k s = .next t := by
  cases r <;> simp [andThen]

theorem andThen_assoc (r : Result) (k l : State → Result) :
    andThen (andThen r k) l = andThen r fun s => andThen (k s) l := by
  cases r <;> rfl

@[simp] theorem unlessFaulted_of_fault {s : State} (h : s.fault = true) (k : State → Result) :
    unlessFaulted s k = .next s := by simp [unlessFaulted, h]

@[simp] theorem unlessFaulted_of_live {s : State} (h : s.fault = false) (k : State → Result) :
    unlessFaulted s k = k s := by simp [unlessFaulted, h]

/-- A guarded command answers a next state by being discarded or by running. -/
theorem unlessFaulted_eq_next {s t : State} {k : State → Result} :
    unlessFaulted s k = .next t ↔ (s.fault = true ∧ s = t) ∨ (s.fault = false ∧ k s = .next t) := by
  cases h : s.fault <;> simp [unlessFaulted, h]

theorem withinCap_none (n : Nat) : withinCap none n = true := rfl

/-- A size within a capacity stays within it when it gets smaller. -/
theorem withinCap_mono {cap : Option Nat} {m n : Nat} (h : withinCap cap n = true) (hmn : m ≤ n) :
    withinCap cap m = true := by
  cases cap with
  | none => rfl
  | some c => simp only [withinCap, decide_eq_true_eq] at h ⊢; omega

/-- `raiseFault` always answers a next state. -/
@[simp] theorem raiseFault_eq (cause : FaultCause) (w : CmdWord) (s : State) :
    raiseFault cause w s = .next (s.setFault cause w) := rfl

theorem growEncOut_eq_next {syms : List Byte} {s t : State} :
    growEncOut syms s = .next t ↔
      withinCap s.caps.encFrameCap (s.encOut.length + syms.length) = true ∧
        s.setEncoder s.encAcc (s.encOut ++ syms) = t := by
  unfold growEncOut; split <;> simp_all

theorem growDecOut_eq_next {bs : List Byte} {s t : State} :
    growDecOut bs s = .next t ↔
      withinCap s.caps.decFrameCap (s.decOut.length + bs.length) = true ∧
        s.setDecoder s.decAcc (s.decOut ++ bs) = t := by
  unfold growDecOut; split <;> simp_all

theorem ifLogRoom_eq_next {l : LogName} {s s' t : State} :
    ifLogRoom l s s' = .next t ↔ withinCap s.caps.logDepth (s.unread l + 1) = true ∧ s' = t := by
  unfold ifLogRoom; split <;> simp_all

theorem appendEncRes_eq_next {r : List Byte} {s t : State} :
    appendEncRes r s = .next t ↔
      withinCap s.caps.logDepth (s.unread .enc + 1) = true ∧ s.pushEncRes r = t := ifLogRoom_eq_next

theorem appendDecRes_eq_next {r : DecResult} {s t : State} :
    appendDecRes r s = .next t ↔
      withinCap s.caps.logDepth (s.unread .dec + 1) = true ∧ s.pushDecRes r = t := ifLogRoom_eq_next

theorem appendLutRes_eq_next {r : LutResult} {s t : State} :
    appendLutRes r s = .next t ↔
      withinCap s.caps.logDepth (s.unread .lut + 1) = true ∧ s.pushLutRes r = t := ifLogRoom_eq_next

theorem growEncTail_eq_next {s t : State} :
    growEncTail s = .next t ↔
      (s.encAcc = [] ∧ s = t) ∨
        (s.encAcc ≠ [] ∧
          withinCap s.caps.encFrameCap (s.encOut.length + (encTail s.encAcc).length) = true ∧
          s.setEncoder s.encAcc (s.encOut ++ encTail s.encAcc) = t) := by
  unfold growEncTail
  split <;> rename_i h
  · simp [List.length_eq_zero_iff.mp h]
  · have : s.encAcc ≠ [] := fun h' => h (by simp [h'])
    simp [this, growEncOut_eq_next]

theorem growDecTail_eq_next {s t : State} :
    growDecTail s = .next t ↔
      (s.decAcc.length < 2 ∧ s = t) ∨
        (2 ≤ s.decAcc.length ∧
          withinCap s.caps.decFrameCap (s.decOut.length + (decTail s.decAcc).length) = true ∧
          s.setDecoder s.decAcc (s.decOut ++ decTail s.decAcc) = t) := by
  unfold growDecTail
  split <;> rename_i h
  · simp [h, Nat.not_lt.mpr h, growDecOut_eq_next]
  · simp [h, Nat.lt_of_not_le h]

theorem deliverDec_eq_next {r : DecResult} {s t : State} :
    deliverDec r s = .next t ↔
      withinCap s.caps.logDepth (s.unread .dec + 1) = true ∧
        ((s.pushDecRes r).setDecoder [] []).setDecLatch false 0x00 = t := by
  simp [deliverDec, andThen_eq_next, appendDecRes_eq_next]

/-- What a step can do: wait, or perform the first pending action. -/
theorem step_eq_next {s t : State} :
    step s = .next t ↔
      (s.pending = [] ∧ s = t) ∨
        ∃ a rest, s.pending = a :: rest ∧ perform a (s.setPending rest) = .next t := by
  unfold step performNext
  cases h : s.pending <;> simp

/-- What executing a word can do: be discarded, record a fault, or run a command. -/
theorem execute_eq_next {w : CmdWord} {s t : State} :
    execute w s = .next t ↔
      (s.fault = true ∧ s = t) ∨
        (s.fault = false ∧ ((∃ e, decode w = .error e ∧ s.setFault (faultCauseOf e) w = t) ∨
          ∃ i, decode w = .ok i ∧ exec i s = .next t)) := by
  rw [execute, unlessFaulted_eq_next]
  cases h : decode w <;> simp [raiseFault]

/-- The host's read of a log changes its own count and nothing else. -/
theorem takeOldest_eq (l : LogName) (s : State) :
    s.takeOldest l = s ∨ (s.unread l ≠ 0 ∧ s.takeOldest l = s.setReads (s.reads.bump l)) := by
  unfold State.takeOldest; split <;> simp_all

end Sys2Proof.Machine
end

