-- ==== Sys2Proof/Laws/Commands.lean ====
section
/-! SUPPORT. What each command meaning can do when it answers a next state, said once per command; later proofs
cite these instead of unfolding a meaning. -/

namespace Sys2Proof.Machine

theorem encBlock_length (b0 b1 b2 b3 : Byte) : (encBlock b0 b1 b2 b3).length = 5 := rfl

theorem decBlock_length (d0 d1 d2 d3 d4 : Digit) : (decBlock d0 d1 d2 d3 d4).length = 4 := rfl

/-- A faulted block discards every command (R155). -/
theorem exec_faulted (i : Instr) {s : State} (h : s.fault = true) : exec i s = .next s := by
  cases i <;> simp [exec, execEncPush, execEncEnd, execDecPush, execDecEnd, execMapD2C, execMapC2D, h]

/-- `ENC_PUSH` while the block is not full after the byte. -/
theorem execEncPush_partial {b : Byte} {s : State} (hs : s.fault = false) (h : s.encAcc.length ≠ 3) :
    execEncPush b s = .next (s.setEncoder (s.encAcc ++ [b]) s.encOut) := by
  simp only [execEncPush, unlessFaulted_of_live hs]
  generalize s.encAcc = acc at h
  split
  · rename_i h4
    have := congrArg List.length h4
    simp at this; omega
  · rfl

/-- `ENC_PUSH` of a block's fourth byte. -/
theorem execEncPush_full {b b0 b1 b2 : Byte} {s : State} (hs : s.fault = false) (h : s.encAcc = [b0, b1, b2]) :
    execEncPush b s = growEncOut (encBlock b0 b1 b2 b) (s.setEncoder [] s.encOut) := by
  simp [execEncPush, hs, h]

theorem execEncPush_eq_next {b : Byte} {s t : State} (hs : s.fault = false) :
    execEncPush b s = .next t ↔
      (s.encAcc.length ≠ 3 ∧ s.setEncoder (s.encAcc ++ [b]) s.encOut = t) ∨
        ∃ b0 b1 b2, s.encAcc = [b0, b1, b2] ∧ withinCap s.caps.encFrameCap (s.encOut.length + 5) = true ∧
          s.setEncoder [] (s.encOut ++ encBlock b0 b1 b2 b) = t := by
  by_cases h : s.encAcc.length = 3
  · obtain ⟨b0, b1, b2, h'⟩ := List.length_eq_three.mp h
    simp [execEncPush_full hs h', growEncOut_eq_next, h', encBlock_length, State.setEncoder]
  · have h' : ∀ b0 b1 b2, s.encAcc ≠ [b0, b1, b2] := fun _ _ _ e => h (by simp [e])
    simp [execEncPush_partial hs h, h, h']

theorem execEncEnd_eq_next {s t : State} (hs : s.fault = false) :
    execEncEnd s = .next t ↔
      ∃ out, ((s.encAcc = [] ∧ s.encOut = out) ∨
          (s.encAcc ≠ [] ∧ s.encOut ++ encTail s.encAcc = out ∧
            withinCap s.caps.encFrameCap out.length = true)) ∧
        withinCap s.caps.logDepth (s.unread .enc + 1) = true ∧ (s.pushEncRes out).setEncoder [] [] = t := by
  simp only [execEncEnd, unlessFaulted_of_live hs, andThen_eq_next, growEncTail_eq_next, appendEncRes_eq_next]
  constructor
  · rintro ⟨u, ⟨h, rfl⟩ | ⟨h, hc, rfl⟩, v, ⟨hd, rfl⟩, ht⟩ <;> cases ht
    · exact ⟨_, .inl ⟨h, rfl⟩, hd, rfl⟩
    · exact ⟨_, .inr ⟨h, rfl, by simpa using hc⟩, by simpa using hd, rfl⟩
  · rintro ⟨out, ⟨h, rfl⟩ | ⟨h, rfl, hc⟩, hd, rfl⟩
    · exact ⟨s, .inl ⟨h, rfl⟩, _, ⟨hd, rfl⟩, rfl⟩
    · exact ⟨_, .inr ⟨h, by simpa using hc, rfl⟩, _, ⟨by simpa using hd, rfl⟩, rfl⟩

/-- `DEC_PUSH` of a symbol while the group is not full after it. -/
theorem execDecPush_partial {c : Byte} {d : Digit} {s : State} (hs : s.fault = false) (hf : s.decFailed = false)
    (hw : isWS c = false) (hd : c2d c = some d) (h : s.decAcc.length ≠ 4) :
    execDecPush c s = .next (s.setDecoder (s.decAcc ++ [d]) s.decOut) := by
  simp only [execDecPush, unlessFaulted_of_live hs, hf, hw, hd, Bool.false_eq_true, if_false]
  generalize s.decAcc = acc at h
  split
  · rename_i h4
    have := congrArg List.length h4
    simp at this; omega
  · rfl

/-- `DEC_PUSH` of a group's fifth symbol. -/
theorem execDecPush_full {c : Byte} {d d0 d1 d2 d3 : Digit} {s : State} (hs : s.fault = false)
    (hf : s.decFailed = false) (hw : isWS c = false) (hd : c2d c = some d) (h : s.decAcc = [d0, d1, d2, d3]) :
    execDecPush c s = growDecOut (decBlock d0 d1 d2 d3 d) (s.setDecoder [] s.decOut) := by
  simp [execDecPush, hs, hf, hw, hd, h]

theorem execDecPush_eq_next {c : Byte} {s t : State} (hs : s.fault = false) :
    execDecPush c s = .next t ↔
      ((s.decFailed = true ∨ isWS c = true) ∧ s = t) ∨
      (s.decFailed = false ∧ isWS c = false ∧
        ((c2d c = none ∧ (s.setDecLatch true c).setDecoder [] [] = t) ∨
          ∃ d, c2d c = some d ∧
            ((s.decAcc.length ≠ 4 ∧ s.setDecoder (s.decAcc ++ [d]) s.decOut = t) ∨
              ∃ d0 d1 d2 d3, s.decAcc = [d0, d1, d2, d3] ∧
                withinCap s.caps.decFrameCap (s.decOut.length + 4) = true ∧
                s.setDecoder [] (s.decOut ++ decBlock d0 d1 d2 d3 d) = t))) := by
  by_cases hf : s.decFailed = true
  · simp [execDecPush, hs, hf]
  by_cases hw : isWS c = true
  · simp [execDecPush, hs, hf, hw]
  rw [Bool.not_eq_true] at hf hw
  cases hd : c2d c with
  | none => simp [execDecPush, hs, hf, hw, hd]
  | some d =>
    by_cases h : s.decAcc.length = 4
    · obtain ⟨d0, d1, d2, d3, h'⟩ : ∃ d0 d1 d2 d3, s.decAcc = [d0, d1, d2, d3] := by
        match hl : s.decAcc, h with
        | [d0, d1, d2, d3], _ => exact ⟨d0, d1, d2, d3, rfl⟩
      simp [execDecPush_full hs hf hw hd h', growDecOut_eq_next, hf, hw, h', decBlock_length, State.setDecoder]
    · have h' : ∀ d0 d1 d2 d3, s.decAcc ≠ [d0, d1, d2, d3] := fun _ _ _ _ e => h (by simp [e])
      simp [execDecPush_partial hs hf hw hd h, hf, hw, h, h']

theorem execDecEnd_eq_next {s t : State} (hs : s.fault = false) :
    execDecEnd s = .next t ↔
      ∃ r, ((s.decFailed = true ∧ .invalidCharacter s.decErrChar = r) ∨
          (s.decFailed = false ∧ s.decAcc.length = 1 ∧ .unexpectedEof = r) ∨
          (s.decFailed = false ∧ s.decAcc = [] ∧ .ok s.decOut = r) ∨
          (s.decFailed = false ∧ 2 ≤ s.decAcc.length ∧ .ok (s.decOut ++ decTail s.decAcc) = r ∧
            withinCap s.caps.decFrameCap (s.decOut.length + (decTail s.decAcc).length) = true)) ∧
        withinCap s.caps.logDepth (s.unread .dec + 1) = true ∧
        ((s.pushDecRes r).setDecoder [] []).setDecLatch false 0x00 = t := by
  simp only [execDecEnd, unlessFaulted_of_live hs]
  split <;> rename_i hf
  · simp [deliverDec_eq_next, hf]
  rw [Bool.not_eq_true] at hf
  split <;> rename_i h1
  · have : s.decAcc ≠ [] := fun e => by simp [e] at h1
    simp [deliverDec_eq_next, hf, h1, this]
  simp only [andThen_eq_next, growDecTail_eq_next, deliverDec_eq_next]
  constructor
  · rintro ⟨u, ⟨h, rfl⟩ | ⟨h, hc, rfl⟩, hd, rfl⟩
    · exact ⟨_, .inr (.inr (.inl ⟨hf, List.length_eq_zero_iff.mp (by omega), rfl⟩)), hd, rfl⟩
    · exact ⟨_, .inr (.inr (.inr ⟨hf, h, rfl, hc⟩)), by simpa using hd, rfl⟩
  · rintro ⟨r, ⟨h, -⟩ | ⟨-, h, -⟩ | ⟨-, h, rfl⟩ | ⟨-, h, rfl, hc⟩, hd, rfl⟩
    · simp [hf] at h
    · exact absurd h h1
    · exact ⟨s, .inl ⟨by simp [h], rfl⟩, hd, rfl⟩
    · exact ⟨_, .inr ⟨h, hc, rfl⟩, by simpa using hd, rfl⟩

theorem execMapD2C_eq_next {d : Byte} {s t : State} (hs : s.fault = false) :
    execMapD2C d s = .next t ↔
      (∃ h : d.toNat < 85, withinCap s.caps.logDepth (s.unread .lut + 1) = true ∧
          s.pushLutRes (.sym (d2c ⟨d.toNat, h⟩)) = t) ∨
        (85 ≤ d.toNat ∧ s.setFault .digitRange (encode (.mapD2C d)) = t) := by
  by_cases h : d.toNat < 85
  · simp [execMapD2C, hs, operandDigit, h, Nat.not_le.mpr h, appendLutRes_eq_next]
  · simp [execMapD2C, hs, operandDigit, h, Nat.not_lt.mp h]

theorem execMapC2D_eq_next {c : Byte} {s t : State} (hs : s.fault = false) :
    execMapC2D c s = .next t ↔
      withinCap s.caps.logDepth (s.unread .lut + 1) = true ∧
        s.pushLutRes (match c2d c with | some d => .digit d | none => .noDigit c) = t := by
  cases h : c2d c <;> simp [execMapC2D, hs, h, appendLutRes_eq_next]

end Sys2Proof.Machine
end

