-- ==== Sys2Proof/Laws/Decode.lean ====
section
/-! SUPPORT. The fields of a command word as numbers, the word built from an opcode and an operand, and what a word
that decodes looks like. -/

namespace Sys2Proof

/-- A concatenation of bit vectors as a number. -/
theorem toNat_append_eq {m n : Nat} (x : BitVec m) (y : BitVec n) : (x ++ y).toNat = x.toNat * 2 ^ n + y.toNat := by
  rw [BitVec.toNat_append, ← Nat.shiftLeft_add_eq_or_of_lt y.isLt, Nat.shiftLeft_eq]

theorem opcField_toNat (w : CmdWord) : (opcField w).toNat = w.toNat / 2 ^ 12 := by
  have := w.isLt
  simp [opcField, BitVec.extractLsb'_toNat, Nat.shiftRight_eq_div_pow]
  omega

theorem rsvField_toNat (w : CmdWord) : (rsvField w).toNat = w.toNat / 2 ^ 8 % 2 ^ 4 := by
  simp [rsvField, BitVec.extractLsb'_toNat, Nat.shiftRight_eq_div_pow]

theorem operandField_toNat (w : CmdWord) : (operandField w).toNat = w.toNat % 2 ^ 8 := by
  simp [operandField, BitVec.extractLsb'_toNat]

theorem commandWord_toNat (o : Opcode) (op : Byte) :
    (commandWord o op).toNat = o.field.toNat * 4096 + op.toNat := by
  have : commandWord o op = ((o.field ++ (0 : BitVec 4)) ++ op : BitVec (4 + 4 + 8)) := rfl
  rw [this, toNat_append_eq, toNat_append_eq]
  simp
  omega

/-- The fields of a command's word are what it was built from, with `RSV` = 0. -/
theorem fields_commandWord (o : Opcode) (op : Byte) :
    opcField (commandWord o op) = o.field ∧ rsvField (commandWord o op) = 0 ∧
      operandField (commandWord o op) = op := by
  have h := commandWord_toNat o op
  have := op.isLt
  have := o.field.isLt
  refine ⟨?_, ?_, ?_⟩ <;> apply BitVec.eq_of_toNat_eq
  · rw [opcField_toNat, h]; omega
  · rw [rsvField_toNat, h]; simp; omega
  · rw [operandField_toNat, h]; omega

/-- A word with `RSV` = 0 is built from its opcode and its operand. -/
theorem commandWord_of_fields {w : CmdWord} {o : Opcode} (h : opcField w = o.field) (hr : rsvField w = 0) :
    commandWord o (operandField w) = w := by
  apply BitVec.eq_of_toNat_eq
  have h1 := congrArg BitVec.toNat hr
  rw [rsvField_toNat] at h1
  have := w.isLt
  rw [commandWord_toNat, ← h, opcField_toNat, operandField_toNat]
  simp at h1 ⊢
  omega

/-- The opcode map and its inverse. -/
theorem ofField_eq_some {f : BitVec 4} {o : Opcode} : Opcode.ofField f = some o ↔ f = o.field := by
  cases o <;> revert f <;> decide

/-- What a word that decodes looks like: an opcode, `RSV` = 0, an operand the opcode takes, and its command. -/
theorem decode_eq_ok {w : CmdWord} {i : Instr} (h : decode w = .ok i) :
    ∃ o : Opcode, opcField w = o.field ∧ rsvField w = 0 ∧ (o.takesOperand = true ∨ operandField w = 0) ∧
      (o = .mapD2C → (operandField w).toNat < 85) ∧ i = o.withOperand (operandField w) := by
  unfold decode at h
  split at h
  · cases h
  · rename_i o ho
    split at h
    · cases h
    · split at h
      · cases h
      · split at h
        · cases h
        · rename_i h1 h2 h3
          refine ⟨o, ofField_eq_some.1 ho, by simpa using h1, ?_, ?_, by simpa using h.symm⟩
          · by_contra hc; apply h2; simpa using hc
          · intro ho'; by_contra hc; exact h3 ⟨ho', by omega⟩

end Sys2Proof
end

