-- ==== Sys2Proof/Laws/PerInstr.lean ====
section
/-! SUPPORT. A law of every command as syntax: its encoded word agrees with the match and mask of its row of the
opcode table (30_encoding.md rule R62). -/

namespace Sys2Proof.Laws.MatchMask

/-- The match and mask of each row of R62. -/
def row : Instr → CmdWord × CmdWord
  | .encPush _ => (0x1000, 0xFF00)
  | .encEnd => (0x2000, 0xFFFF)
  | .decPush _ => (0x3000, 0xFF00)
  | .decEnd => (0x4000, 0xFFFF)
  | .mapD2C _ => (0x5000, 0xFF00)
  | .mapC2D _ => (0x6000, 0xFF00)

/-- The word of a command has the fixed bits of its row. -/
def Statement (i : Instr) : Prop := encode i &&& (row i).2 = (row i).1

theorem word_fixed_bits (f r : BitVec 4) (op : Byte) :
    (f ++ r ++ op : BitVec 16) &&& 0xFF00 = (f ++ r ++ (0 : Byte) : BitVec 16) := by
  ext i hi
  have : (0xFF00 : BitVec 16) = (0xFF : BitVec 8) ++ (0 : BitVec 8) := by decide
  rw [this, BitVec.getElem_and, BitVec.getElem_append, BitVec.getElem_append, BitVec.getElem_append]
  by_cases h : i < 8
  · simp [h]
  · have ones : ∀ (k : Nat) (hk : k < 8), (0xFF : BitVec 8)[k] = true := by decide
    simpa [h] using fun _ => ones (i - 8) (by omega)

theorem encPush (b : Byte) : Statement (.encPush b) := word_fixed_bits 1 0 b

theorem encEnd : Statement .encEnd := by unfold Statement; decide

theorem decPush (c : Byte) : Statement (.decPush c) := word_fixed_bits 3 0 c

theorem decEnd : Statement .decEnd := by unfold Statement; decide

theorem mapD2C (d : Byte) : Statement (.mapD2C d) := word_fixed_bits 5 0 d

theorem mapC2D (c : Byte) : Statement (.mapC2D c) := word_fixed_bits 6 0 c

end Sys2Proof.Laws.MatchMask
end

