-- ==== Sys2Proof/Laws/Run.lean ====
section
/-! SUPPORT. Runs: the equations of the machine's run and of the runs of words and commands, and the fault bit
along a run. -/

namespace Sys2Proof.Machine

theorem core_run_zero (s : State) : core.run 0 s = (.next s : Result) := rfl

/-- A run of the machine is a step and then the rest of the run. -/
theorem core_run_succ (k : Nat) (s : State) :
    core.run (k + 1) s = andThen (step s) (fun t : State => core.run k t) := by
  have : core.step s = step s := rfl
  simp only [Host.Core.run, this]
  cases step s <;> rfl

theorem runWords_cons_eq_next {w : CmdWord} {ws : List CmdWord} {s t : State} :
    runWords (w :: ws) s = .next t ↔ ∃ u, execute w s = .next u ∧ runWords ws u = .next t := andThen_eq_next

theorem runCommands_cons_eq_next {i : Instr} {is : List Instr} {s t : State} :
    runCommands (i :: is) s = .next t ↔ ∃ u, exec i s = .next u ∧ runCommands is u = .next t := andThen_eq_next

theorem runCommands_append (is js : List Instr) (s : State) :
    runCommands (is ++ js) s = andThen (runCommands is s) (runCommands js) := by
  induction is generalizing s with
  | nil => rfl
  | cons i is ih =>
    simp only [List.cons_append, runCommands, andThen_assoc]
    congr 1; funext u; exact ih u

/-- A command that ends without a fault began without one. -/
theorem exec_begins_live {i : Instr} {s t : State} (h : exec i s = .next t) (ht : t.fault = false) :
    s.fault = false := by
  cases hs : s.fault
  · rfl
  · rw [exec_faulted i hs] at h; cases h; rw [← ht, hs]

/-- A run that ends without a fault began without one. -/
theorem runCommands_begins_live {is : List Instr} {s t : State} (h : runCommands is s = .next t)
    (ht : t.fault = false) : s.fault = false := by
  induction is generalizing s with
  | nil => cases h; exact ht
  | cons i is ih =>
    obtain ⟨u, hu, h'⟩ := runCommands_cons_eq_next.1 h
    exact exec_begins_live hu (ih h')

end Sys2Proof.Machine
end

