-- ==== Sys2Proof/Tests/Slice0.lean ====
section
/-! SUPPORT. The model's own tests, each on one operation or one step, with the expected values of the spec
(95_test_vectors.md and the worked examples of the rules), and for each statement with hypotheses a witness that
meets them. -/

namespace Sys2Proof.Tests

open Sys2Proof Sys2Proof.Machine

/-- The next state of an outcome, for reading its fields. -/
def nextOf (r : Result) : Option State :=
  match r with
  | .next s => some s
  | .fault _ => none
  | .refused _ => none

/-- The refusal of an outcome. -/
def refusalOf (r : Result) : Option Refusal :=
  match r with
  | .next _ => none
  | .fault _ => none
  | .refused e => some e

/-! ### WellFormed -/

/-- The smoke test: the one check refuses an operand of 85, and takes 84. -/
theorem test_wellFormed_digit : (Instr.mapD2C 85).wellFormed = false ∧ (Instr.mapD2C 84).wellFormed = true := by
  decide

/-! ### Decoding: words written out bit by bit from R60 and R62 -/

/-- `ENC_PUSH 'a'`: OPC 0001, RSV 0000, OPERAND 0110 0001. -/
theorem test_decode_encPush : decode 0b0001000001100001 = .ok (.encPush 0x61) := by decide

/-- `ENC_END`: OPC 0010, the rest 0. -/
theorem test_decode_encEnd : decode 0b0010000000000000 = .ok .encEnd := by decide

/-- `DEC_PUSH ' '`: OPC 0011, RSV 0000, OPERAND 0010 0000. -/
theorem test_decode_decPush : decode 0b0011000000100000 = .ok (.decPush 0x20) := by decide

/-- `DEC_END`: OPC 0100, the rest 0. -/
theorem test_decode_decEnd : decode 0b0100000000000000 = .ok .decEnd := by decide

/-- `MAP_D2C 84`: OPC 0101, RSV 0000, OPERAND 0101 0100. -/
theorem test_decode_mapD2C : decode 0b0101000001010100 = .ok (.mapD2C 84) := by decide

/-- `MAP_C2D '~'`: OPC 0110, RSV 0000, OPERAND 0111 1110. -/
theorem test_decode_mapC2D : decode 0b0110000001111110 = .ok (.mapC2D 0x7E) := by decide

/-- 95_test_vectors.md 2.4: the defects and their order. -/
theorem test_decode_defects :
    decode 0x0000 = .error .illegalOpcode ∧ decode 0x7000 = .error .illegalOpcode ∧
      decode 0xF155 = .error .illegalOpcode ∧ decode 0x2001 = .error .reservedField ∧
      decode 0x3161 = .error .reservedField ∧ decode 0x5055 = .error .digitRange ∧
      decode 0x5155 = .error .reservedField := by decide

/-- The words of R66's examples. -/
theorem test_encode_examples :
    encode (.encPush 0x61) = 0x1061 ∧ encode .encEnd = 0x2000 ∧ encode (.decPush 0x20) = 0x3020 ∧
      encode .decEnd = 0x4000 ∧ encode (.mapD2C 84) = 0x5054 ∧ encode (.mapC2D 0x7E) = 0x607E := by decide

/-- The opcode table's numbering of a word's bits. -/
theorem test_decodeTableWord :
    decodeTableWord 16 0x1061 = some (.encPush 0x61) ∧ decodeTableWord 16 0x2001 = none := by decide

/-! ### Tables (95_test_vectors.md 2.1, R87, R88) -/

theorem test_d2c_rows :
    d2c 0 = 0x30 ∧ d2c 9 = 0x39 ∧ d2c 10 = 0x41 ∧ d2c 35 = 0x5A ∧ d2c 36 = 0x61 ∧ d2c 61 = 0x7A ∧
      d2c 62 = 0x21 ∧ d2c 80 = 0x60 ∧ d2c 82 = 0x7C ∧ d2c 84 = 0x7E := by decide

theorem test_c2d_rows :
    c2d 0x7E = some 84 ∧ c2d 0x60 = some 80 ∧ c2d 0x21 = some 62 ∧ c2d 0x5C = none ∧ c2d 0x22 = none ∧
      c2d 0x27 = none ∧ c2d 0x20 = none ∧ c2d 0x09 = none ∧ c2d 0x80 = none ∧ c2d 0xFF = none := by decide

/-- The nine printable codes that are no symbols (R87). -/
theorem test_printable_non_symbols :
    ([0x22, 0x27, 0x2C, 0x2E, 0x2F, 0x3A, 0x5B, 0x5C, 0x5D] : List Byte).map c2d = List.replicate 9 none := by
  decide

set_option maxRecDepth 4000 in
/-- Exactly 85 of the 256 codes are symbols (R85). -/
theorem test_symbol_count : (c2dRom.filter Option.isSome).length = 85 := by decide

theorem test_whitespace_rows :
    isWS 0x20 = true ∧ isWS 0x0A = true ∧ isWS 0x0B = true ∧ isWS 0x0D = true ∧ isWS 0x09 = false ∧
      isWS 0x0C = false ∧ isWS 0x80 = false := by decide

/-! ### Blocks and frames (95_test_vectors.md 2.2, 2.3) -/

theorem test_digits5_largest : digits5 (pack4 0xFF 0xFF 0xFF 0xFF) = [82, 23, 54, 12, 0] := by decide

/-- 0x12345678 gives `5;RtL`. -/
theorem test_encBlock : encBlock 0x12 0x34 0x56 0x78 = [0x35, 0x3B, 0x52, 0x74, 0x4C] := by decide

/-- `VE`, `VPO` and `VPRn`. -/
theorem test_encTail :
    encTail [0x61] = [0x56, 0x45] ∧ encTail [0x61, 0x61] = [0x56, 0x50, 0x4F] ∧
      encTail [0x61, 0x61, 0x61] = [0x56, 0x50, 0x52, 0x6E] := by decide

/-- `aaaaa` gives `VPRomVE`, and the empty frame nothing. -/
theorem test_encodeFrame :
    encodeFrame [0x61, 0x61, 0x61, 0x61, 0x61] = [0x56, 0x50, 0x52, 0x6F, 0x6D, 0x56, 0x45] ∧
      encodeFrame [] = [] := by decide

/-- `~~~~~` wraps to 08 78 0E C4, and `V!#E?` is the punctuation vector. -/
theorem test_decBlock :
    decBlock 84 84 84 84 84 = [0x08, 0x78, 0x0E, 0xC4] ∧ decBlock 31 62 63 14 76 = [0x62, 0xC0, 0x05, 0xCE] := by
  decide

/-- `VE`, `VF` and `V~`. -/
theorem test_decTail : decTail [31, 14] = [0x61] ∧ decTail [31, 15] = [0x61] ∧ decTail [31, 84] = [0x63] := by decide

/-- ` VPRom VE`, `VPRomV`, `VPRom\t`, `V\t"E` and whitespace alone. -/
theorem test_decodeFrame :
    decodeFrame [0x20, 0x56, 0x50, 0x52, 0x6F, 0x6D, 0x0B, 0x56, 0x45] = .ok [0x61, 0x61, 0x61, 0x61, 0x61] ∧
      decodeFrame [0x56, 0x50, 0x52, 0x6F, 0x6D, 0x56] = .unexpectedEof ∧
      decodeFrame [0x56, 0x50, 0x52, 0x6F, 0x6D, 0x09] = .invalidCharacter 0x09 ∧
      decodeFrame [0x56, 0x09, 0x22, 0x45] = .invalidCharacter 0x09 ∧
      decodeFrame [0x20, 0x0A, 0x0B, 0x0D] = .ok [] := by decide

/-! ### One step of each command -/

/-- R108's worked example: the fourth `a` gives `VPRom`. -/
theorem test_encPush_block :
    (nextOf (exec (.encPush 0x61) { State.reset with encAcc := [0x61, 0x61, 0x61] })).map
      (fun t => (t.encAcc, t.encOut)) = some ([], [0x56, 0x50, 0x52, 0x6F, 0x6D]) := by decide

/-- R109's worked example: `VPRomVE`. -/
theorem test_encEnd_tail :
    (nextOf (exec .encEnd { State.reset with encAcc := [0x61], encOut := [0x56, 0x50, 0x52, 0x6F, 0x6D] })).map
      (fun t => (t.encAcc, t.encOut, t.encRes)) =
      some ([], [], [[0x56, 0x50, 0x52, 0x6F, 0x6D, 0x56, 0x45]]) := by decide

/-- R131's worked example: the fifth symbol gives four `a`. -/
theorem test_decPush_group :
    (nextOf (exec (.decPush 0x6D) { State.reset with decAcc := [31, 25, 27, 50] })).map
      (fun t => (t.decAcc, t.decOut)) = some ([], [0x61, 0x61, 0x61, 0x61]) := by decide

/-- A tab fails the frame and drops its bytes (95_test_vectors.md 2.4). -/
theorem test_decPush_invalid :
    (nextOf (exec (.decPush 0x09) { State.reset with decAcc := [31], decOut := [0x61, 0x61, 0x61, 0x61] })).map
      (fun t => (t.decAcc, t.decOut, t.decFailed, t.decErrChar, t.status)) =
      some ([], [], true, 0x09, 0x00090100) := by decide

/-- R132's worked example: `VE` gives one byte. -/
theorem test_decEnd_tail :
    (nextOf (exec .decEnd { State.reset with decAcc := [31, 14] })).map (fun t => (t.decAcc, t.decRes)) =
      some ([], [.ok [0x61]]) := by decide

/-- A failed frame reports its character whatever is held, and the latch is cleared. -/
theorem test_decEnd_failed :
    (nextOf (exec .decEnd { State.reset with decFailed := true, decErrChar := 0x09 })).map
      (fun t => (t.decFailed, t.decErrChar, t.decRes)) = some (false, 0x00, [.invalidCharacter 0x09]) := by decide

/-- R90's worked example: `MAP_D2C 31` gives `Sym(0x56)`. -/
theorem test_mapD2C_symbol :
    (nextOf (exec (.mapD2C 31) State.reset)).map (fun t => t.lutRes) = some [.sym 0x56] := by decide

/-- `MAP_C2D 0x60` gives `Digit(80)`. -/
theorem test_mapC2D_digit :
    (nextOf (exec (.mapC2D 0x60) State.reset)).map (fun t => t.lutRes) = some [.digit 80] := by decide

/-- `MAP_C2D 0x20` gives `NoDigit(0x20)`. -/
theorem test_mapC2D_noDigit :
    (nextOf (exec (.mapC2D 0x20) State.reset)).map (fun t => t.lutRes) = some [.noDigit 0x20] := by decide

/-! ### The step, the fault and reset -/

/-- The first word after reset runs: `ENC_PUSH 'a'` counts one byte in `STATUS`. -/
theorem test_step_first_word :
    (nextOf (step (State.reset.withFetchWord 16 0x1061))).map (fun t => (t.encAcc, t.status, t.pending)) =
      some ([0x61], 0x00000008, []) := by decide

/-- 0x5055 faults with DIGIT_RANGE: `STATUS` 0x00000007, `FAULTINFO` 0x00005055 (95_test_vectors.md 2.4). -/
theorem test_step_digit_range :
    (nextOf (step (State.reset.withFetchWord 16 0x5055))).map (fun t => (t.status, t.faultInfo, t.lutRes)) =
      some (0x00000007, 0x00005055, []) := by decide

/-- After `ENC_PUSH 'a'`, 0x2001 faults and the accumulator stays: `STATUS` 0x0000000D (95_test_vectors.md 2.4). -/
theorem test_step_reserved_field :
    (nextOf (step ({ State.reset with encAcc := [0x61] }.withFetchWord 16 0x2001))).map
      (fun t => (t.status, t.faultInfo, t.encRes)) = some (0x0000000D, 0x00002001, []) := by decide

/-- A faulted block discards `ENC_END`. -/
theorem test_step_discards :
    (nextOf (step ({ State.reset with fault := true, faultCause := .illegalOpcode }.withFetchWord 16 0x2000))).map
      (fun t => (t.encRes, t.status)) = some ([], 0x00000003) := by decide

/-- Reset clears a faulted block and its logs (R170, R172). -/
theorem test_step_reset :
    (nextOf (step { State.reset with
      fault := true, faultCause := .illegalOpcode, lutRes := [.digit 80], encAcc := [0x61],
      pending := [.assertReset] })) = some State.reset := by decide

/-- The oldest unread result is taken first, once (R56). -/
theorem test_readLog :
    replyTo (.readLog .lut) { State.reset with lutRes := [.digit 80, .sym 0x7E], reads := ⟨0, 0, 1⟩ } =
        .lutResult (some (.sym 0x7E)) ∧
      (nextOf (perform (.readLog .lut) { State.reset with lutRes := [.digit 80] })).map
        (fun t => (t.lutRes, t.reads.lut)) = some ([.digit 80], 1) := by decide

/-- The numeric codes of R25 and R153. -/
theorem test_result_codes :
    (DecResult.ok []).code = 0 ∧ (DecResult.invalidCharacter 0x09).code = 1 ∧ DecResult.unexpectedEof.code = 2 ∧
      (LutResult.sym 0x56).code = 0 ∧ (LutResult.digit 48).code = 1 ∧ (LutResult.noDigit 0x20).code = 2 ∧
      FaultCause.noFault.code = 0 ∧ FaultCause.digitRange.code = 3 := by decide

/-! ### The assembler (R66, R67) -/

/-- `ENC_PUSH 'a'`, `DEC_PUSH ' '` and `MAP_D2C 84`, and a comment after an END command. -/
theorem test_assemble_examples :
    assembleLine ['E', 'N', 'C', '_', 'P', 'U', 'S', 'H', ' ', '\'', 'a', '\''] = some [0x1061] ∧
      assembleLine ['D', 'E', 'C', '_', 'P', 'U', 'S', 'H', ' ', '\'', ' ', '\''] = some [0x3020] ∧
      assembleLine ['M', 'A', 'P', '_', 'D', '2', 'C', ' ', '8', '4'] = some [0x5054] ∧
      assembleLine ['E', 'N', 'C', '_', 'E', 'N', 'D', ' ', ';', 'x'] = some [0x2000] := by decide

/-- `DECODE_FRAME "V\n"` expands to two pushes and the END command; `ENC_END 0` is no command line. -/
theorem test_assemble_frame :
    assembleLine (decodeFrameName ++ [' ', '"', 'V', '\\', 'n', '"']) = some [0x3056, 0x300A, 0x4000] ∧
      assembleLine ['E', 'N', 'C', '_', 'E', 'N', 'D', ' ', '0'] = none := by decide

/-- The comment lines of programs P3 and P5, and the operand `'\\t'` and the list of P3 and P5. -/
theorem test_assemble_program_lines :
    assembleLine [' ', ' ', ';', ' ', 'S'] = some [] ∧ assembleLine [] = some [] ∧
      assembleLine ['D', 'E', 'C', '_', 'P', 'U', 'S', 'H', ' ', '\'', '\\', 't', '\'', ';'] = some [0x3009] ∧
      assembleLine (encodeFrameName ++ [' ', '[', '0', 'x', 'f', 'F', ',', ' ', '0', ']']) =
        some [0x10FF, 0x1000, 0x2000] := by decide

/-- What frames put into `DEC_OUT`: `VPRom`, ` VPRom VE`, `VPRomV`, and `VPRomVE` with a tab after it. -/
theorem test_bufferedBytes :
    bufferedBytes [0x56, 0x50, 0x52, 0x6F, 0x6D] = 4 ∧
      bufferedBytes [0x20, 0x56, 0x50, 0x52, 0x6F, 0x6D, 0x20, 0x56, 0x45] = 5 ∧
      bufferedBytes [0x56, 0x50, 0x52, 0x6F, 0x6D, 0x56] = 4 ∧
      bufferedBytes [0x56, 0x50, 0x52, 0x6F, 0x6D, 0x56, 0x45, 0x09] = 4 := by decide

/-! ### Witnesses: for each statement with hypotheses, values that meet them -/

/-- A state in the middle of a frame on each engine, with capacities and one result read. -/
def midFrame : State :=
  { State.reset with
    encAcc := [0x61, 0x62]
    encOut := [0x56, 0x50, 0x52, 0x6F, 0x6D]
    decAcc := [31, 25, 27, 50]
    decOut := [0x61, 0x61, 0x61, 0x61]
    lutRes := [.sym 0x7E, .noDigit 0x20]
    reads := { enc := 0, dec := 0, lut := 1 }
    caps := { encFrameCap := some 10, decFrameCap := some 8, logDepth := some 2 }
    pending := [.command 0x1063] }

/-- The same state, one byte further in the encoder's block. -/
def blockNearlyFull : State := { midFrame with encAcc := [0x61, 0x62, 0x63] }

/-- The same states with no capacity left. -/
def noRoom : State :=
  { blockNearlyFull with caps := { encFrameCap := some 5, decFrameCap := some 4, logDepth := some 0 } }

/-- The same state with exactly enough room in both frame buffers and none in the logs. -/
def fullLogs : State := { blockNearlyFull with caps := { encFrameCap := some 9, decFrameCap := some 7, logDepth := some 0 } }

/-- A block that has faulted on the word 0x5055. -/
def faulted : State :=
  { midFrame with fault := true, faultCause := .digitRange, faultWord := 0x5055, pending := [.command 0x2000] }

theorem witness_midFrame_inv : Inv midFrame where
  encoder := ⟨by decide, by decide, by decide, by decide, by decide⟩
  decoder := ⟨by decide, by decide, by decide, by decide, by decide⟩
  faults := ⟨by decide, fun h => absurd h (by decide)⟩
  logs := ⟨fun l => by cases l <;> decide, fun l => by cases l <;> decide⟩

theorem witness_faulted_inv : Inv faulted where
  encoder := ⟨by decide, by decide, by decide, by decide, by decide⟩
  decoder := ⟨by decide, by decide, by decide, by decide, by decide⟩
  faults := ⟨by decide, fun _ => ⟨.digitRange, by decide, by decide⟩⟩
  logs := ⟨fun l => by cases l <;> decide, fun l => by cases l <;> decide⟩

/-- `StatusFieldsAreState`: a state that meets the invariant with the latch set, and one with it clear. -/
theorem witness_StatusFieldsAreState :
    Inv midFrame ∧ midFrame.decFailed = false ∧ midFrame.status = 0x00000090 ∧ faulted.status = 0x00000097 :=
  ⟨witness_midFrame_inv, by decide, by decide, by decide⟩

/-- `StepKeepsInvariant`. -/
theorem witness_StepKeepsInvariant : Inv midFrame ∧ ∃ t, step midFrame = .next t ∧ t.encAcc = [0x61, 0x62, 0x63] :=
  ⟨witness_midFrame_inv, _, rfl, rfl⟩

/-- `DecodeOfEncodeIsCommand`: an operand on each side of the bound. -/
theorem witness_DecodeOfEncodeIsCommand :
    (Instr.mapD2C 84).wellFormed = true ∧ (Instr.mapD2C 85).wellFormed = false := by decide

/-- `EncodeOfDecodeIsWord`. -/
theorem witness_EncodeOfDecodeIsWord : decode 0x5054 = .ok (.mapD2C 84) := by decide

/-- `ExecuteChecksWordsInOrder`: a word at a boundary of each clause, with a live and a faulted state. -/
theorem witness_ExecuteChecksWordsInOrder :
    midFrame.fault = false ∧ faulted.fault = true ∧
      (0x0FFF : CmdWord).toNat / 2 ^ 12 = 0 ∧ (0x7000 : CmdWord).toNat / 2 ^ 12 = 7 ∧
      (0x1100 : CmdWord).toNat / 2 ^ 8 % 2 ^ 4 = 1 ∧ (0x6FFF : CmdWord).toNat / 2 ^ 8 % 2 ^ 4 = 15 ∧
      (0x2001 : CmdWord).toNat % 2 ^ 8 = 1 ∧ (0x40FF : CmdWord).toNat % 2 ^ 8 = 255 ∧
      (0x5055 : CmdWord).toNat % 2 ^ 8 = 85 ∧ (0x5054 : CmdWord).toNat % 2 ^ 8 = 84 ∧
      (0x10FF : CmdWord).toNat / 2 ^ 12 = 1 ∧ (0x2000 : CmdWord).toNat / 2 ^ 12 = 2 ∧
      (0x30FF : CmdWord).toNat / 2 ^ 12 = 3 ∧ (0x4000 : CmdWord).toNat / 2 ^ 12 = 4 ∧
      (0x60FF : CmdWord).toNat / 2 ^ 12 = 6 := by decide

/-- `StepRunsDecodedCommand`. -/
theorem witness_StepRunsDecodedCommand :
    decode 0x1063 = .ok (.encPush 0x63) ∧ midFrame.pending = .command 0x1063 :: [] := by decide

/-- `FaultingWordIsRecordedPrecisely`. -/
theorem witness_FaultingWordIsRecordedPrecisely : decode 0x2001 = .error .reservedField ∧ midFrame.fault = false := by
  decide

/-- `FaultedBlockDiscardsCommands`, with an action of each side of its last clause. -/
theorem witness_FaultedBlockDiscardsCommands :
    faulted.fault = true ∧ (∃ t, perform .assertReset faulted = .next t ∧ t.fault = false) ∧
      ∃ t, perform (.command 0x2000) faulted = .next t ∧ t.fault = true :=
  ⟨by decide, ⟨_, rfl, rfl⟩, ⟨_, rfl, rfl⟩⟩

/-- `FaultRecordIsSticky`: a run of two steps, and a pending reset. -/
theorem witness_FaultRecordIsSticky :
    faulted.fault = true ∧ HostAction.assertReset ∉ faulted.pending ∧
      (∃ t : State, core.run 2 faulted = .next t ∧ t.faultWord = 0x5055) ∧
      { faulted with pending := [.assertReset] }.pending = .assertReset :: [] :=
  ⟨by decide, by decide, ⟨_, rfl, rfl⟩, by decide⟩

/-- `WordsWriteOnlyTheirEngine`: a word of each engine, and one that spells no command. -/
theorem witness_WordsWriteOnlyTheirEngine :
    (∃ t, execute 0x1063 midFrame = .next t) ∧ (∃ t, execute 0x4000 midFrame = .next t) ∧
      (∃ t, execute 0x6020 midFrame = .next t) ∧ (∃ t, execute 0x0000 midFrame = .next t) ∧
      decode 0x1063 = .ok (.encPush 0x63) ∧ decode 0x4000 = .ok .decEnd ∧ decode 0x6020 = .ok (.mapC2D 0x20) ∧
      decode 0x0000 = .error .illegalOpcode :=
  ⟨⟨_, rfl⟩, ⟨_, rfl⟩, ⟨_, rfl⟩, ⟨_, rfl⟩, by decide, by decide, by decide, by decide⟩

/-- `LogsAreAppendOnly`: a word that appends, one that does not, and a read. -/
theorem witness_LogsAreAppendOnly :
    (∃ t, execute 0x2000 midFrame = .next t ∧ t.encRes ≠ []) ∧ (∃ t, execute 0x1063 midFrame = .next t) ∧
      ∃ t, perform (.readLog .lut) midFrame = .next t ∧ t.reads.lut = 2 :=
  ⟨⟨_, rfl, by decide⟩, ⟨_, rfl⟩, ⟨_, rfl, by decide⟩⟩

/-- `LogReadsTakeOldestUnread`: a log with an unread result and one without. -/
theorem witness_LogReadsTakeOldestUnread : midFrame.unread .lut = 1 ∧ midFrame.unread .enc = 0 := by decide

/-- `MapD2CAppendsSymbol`: an operand on each side of the bound, room in the log, and a reserved field. -/
theorem witness_MapD2CAppendsSymbol :
    midFrame.fault = false ∧ (84 : Byte).toNat < 85 ∧ 85 ≤ (85 : Byte).toNat ∧
      withinCap midFrame.caps.logDepth (midFrame.unread .lut + 1) = true ∧
      (0x5154 : CmdWord).toNat / 2 ^ 12 = 5 ∧ (0x5154 : CmdWord).toNat / 2 ^ 8 % 2 ^ 4 ≠ 0 := by decide

set_option maxRecDepth 4000 in
/-- `MapC2DAppendsDigit`: a symbol, a character that is none, room in the log, and a reserved field. -/
theorem witness_MapC2DAppendsDigit :
    midFrame.fault = false ∧ c2dRom[(0x60 : Byte).toNat]? = some (some 80) ∧
      c2dRom[(0x5C : Byte).toNat]? = some none ∧
      withinCap midFrame.caps.logDepth (midFrame.unread .lut + 1) = true ∧
      (0x6F60 : CmdWord).toNat / 2 ^ 12 = 6 ∧ (0x6F60 : CmdWord).toNat / 2 ^ 8 % 2 ^ 4 ≠ 0 := by decide

/-- `WeightedSumInvertsDigits`, at the top of its range. -/
theorem witness_WeightedSumInvertsDigits : (2 ^ 32 - 1 : Nat) < 2 ^ 32 := by decide

/-- `EncTailPadsWithZeroBytes`, at both ends of its range. -/
theorem witness_EncTailPadsWithZeroBytes :
    ([0x61] : List Byte) ++ List.replicate (4 - 1) 0x00 = [0x61, 0x00, 0x00, 0x00] ∧
      ([0x61, 0x62, 0x63] : List Byte) ++ List.replicate (4 - 3) 0x00 = [0x61, 0x62, 0x63, 0x00] := by decide

/-- `DecTailPadsWithMaximumDigit`, at both ends of its range. -/
theorem witness_DecTailPadsWithMaximumDigit :
    ([31, 14] : List Digit) ++ List.replicate (5 - 2) 84 = [31, 14, 84, 84, 84] ∧
      ([31, 25, 27, 50] : List Digit) ++ List.replicate (5 - 4) 84 = [31, 25, 27, 50, 84] := by decide

/-- `EncodeStaysInAlphabet`. -/
theorem witness_EncodeStaysInAlphabet : (0x7C : Byte) ∈ encodeFrame [0xFF, 0xFF, 0xFF, 0xFF] := by decide

/-- `EncPushAppendsByte`: a block that stays open and one that is full, with exactly enough room, and a reserved
field. -/
theorem witness_EncPushAppendsByte :
    midFrame.fault = false ∧ midFrame.encAcc.length ≠ 3 ∧ blockNearlyFull.fault = false ∧
      blockNearlyFull.encAcc = [0x61, 0x62, 0x63] ∧
      withinCap blockNearlyFull.caps.encFrameCap (blockNearlyFull.encOut.length + 5) = true ∧
      (0x1161 : CmdWord).toNat / 2 ^ 12 = 1 ∧ (0x1161 : CmdWord).toNat / 2 ^ 8 % 2 ^ 4 ≠ 0 := by decide

/-- `EncEndDeliversFrame`: with a tail that fits and with none, and the words that are not 0x2000. -/
theorem witness_EncEndDeliversFrame :
    midFrame.fault = false ∧ 0 < midFrame.encAcc.length ∧
      withinCap midFrame.caps.encFrameCap (midFrame.encOut ++ encTail midFrame.encAcc).length = true ∧
      withinCap midFrame.caps.logDepth (midFrame.unread .enc + 1) = true ∧
      State.reset.fault = false ∧ State.reset.encAcc.length = 0 ∧
      withinCap State.reset.caps.logDepth (State.reset.unread .enc + 1) = true ∧
      (0x2001 : CmdWord).toNat / 2 ^ 12 = 2 ∧ (0x2001 : CmdWord).toNat % 2 ^ 12 ≠ 0 := by decide

/-- `EncoderTracksOpenFrame` and `EncoderFrameIsEncode`, with commands of the other engines in between. -/
theorem witness_EncoderFrameIsEncode :
    State.reset.atEncStart ∧
      onEngine .enc [.encPush 0x61, .decPush 0x56, .encPush 0x62, .mapC2D 0x20] =
        [0x61, 0x62].map Instr.encPush ∧
      (∃ t, runCommands [.encPush 0x61, .decPush 0x56, .encPush 0x62, .mapC2D 0x20] State.reset = .next t ∧
        t.fault = false) ∧
      ∃ t, runCommands ([.encPush 0x61, .decPush 0x56, .encPush 0x62, .mapC2D 0x20] ++ [.encEnd]) State.reset =
        .next t ∧ t.fault = false :=
  ⟨⟨rfl, rfl⟩, by decide, ⟨_, rfl, rfl⟩, ⟨_, rfl, rfl⟩⟩

/-- A start state with capacities that a frame of one byte fills exactly. -/
def smallCaps : State := State.resetWith { encFrameCap := some 2, decFrameCap := some 2, logDepth := some 1 }

/-- `EncoderFrameCompletes`. -/
theorem witness_EncoderFrameCompletes :
    smallCaps.fault = false ∧ (smallCaps.encAcc = [] ∧ smallCaps.encOut = []) ∧
      withinCap smallCaps.caps.encFrameCap (encodeFrame [0x61]).length = true ∧
      withinCap smallCaps.caps.logDepth (smallCaps.unread .enc + 1) = true := by decide

/-- `DecodeFollowsFrameRule`: a frame of each clause. -/
theorem witness_DecodeFollowsFrameRule :
    ([0x56, 0x20, 0x09, 0x22] : List Byte).filter (fun c => c ∉ [0x20, 0x0A, 0x0B, 0x0D]) =
        [0x56] ++ 0x09 :: [0x22] ∧
      0x09 ∉ d2cRom ∧ 0x56 ∈ d2cRom ∧
      ([0x56, 0x0D] : List Byte).filter (fun c => c ∉ [0x20, 0x0A, 0x0B, 0x0D]) = [31].map d2c ∧
      ([0x56, 0x0B, 0x45] : List Byte).filter (fun c => c ∉ [0x20, 0x0A, 0x0B, 0x0D]) = [31, 14].map d2c := by decide

/-- `DecodeLengthFormula`. -/
theorem witness_DecodeLengthFormula : decodeFrame [0x56, 0x20, 0x45] = .ok [0x61] := by decide

/-- `WhitespaceDoesNotMatter`. -/
theorem witness_WhitespaceDoesNotMatter : ∀ c ∈ ([0x20, 0x0A, 0x0B, 0x0D] : List Byte), isWS c = true := by decide

/-- `DecodeInvertsEncode`. -/
theorem witness_DecodeInvertsEncode : symbolPositions [0x56, 0x0D, 0x45] = encodeFrame [0x61] := by decide

set_option maxRecDepth 4000 in
/-- `DecPushTakesCharacter`: a failed frame, whitespace, an invalid character, an open group, a full one with exactly
enough room, and a reserved field. -/
theorem witness_DecPushTakesCharacter :
    midFrame.fault = false ∧ midFrame.decFailed = false ∧ { State.reset with decFailed := true }.fault = false ∧
      (0x0D : Byte) ∈ ([0x20, 0x0A, 0x0B, 0x0D] : List Byte) ∧
      (0x0C : Byte) ∉ ([0x20, 0x0A, 0x0B, 0x0D] : List Byte) ∧ c2dRom[(0x0C : Byte).toNat]? = some none ∧
      c2dRom[(0x6D : Byte).toNat]? = some (some 48) ∧ State.reset.decAcc.length ≠ 4 ∧
      midFrame.decAcc = [31, 25, 27, 50] ∧
      withinCap midFrame.caps.decFrameCap (midFrame.decOut.length + 4) = true ∧
      (0x3161 : CmdWord).toNat / 2 ^ 12 = 3 ∧ (0x3161 : CmdWord).toNat / 2 ^ 8 % 2 ^ 4 ≠ 0 := by decide

/-- `DecEndDeliversResult`: a tail that fits, a lone symbol, a failed frame, and the words that are not 0x4000. -/
theorem witness_DecEndDeliversResult :
    midFrame.fault = false ∧ midFrame.decFailed = false ∧ 2 ≤ midFrame.decAcc.length ∧
      withinCap midFrame.caps.decFrameCap (midFrame.decOut ++ decTail midFrame.decAcc).length = true ∧
      withinCap midFrame.caps.logDepth (midFrame.unread .dec + 1) = true ∧
      { State.reset with decAcc := [31] }.decAcc.length = 1 ∧
      { State.reset with decFailed := true }.decFailed = true ∧
      (0x4100 : CmdWord).toNat / 2 ^ 12 = 4 ∧ (0x4100 : CmdWord).toNat % 2 ^ 12 ≠ 0 := by decide

/-- `DecoderFrameIsDecode`, with commands of the other engines in between and an invalid character in the frame. -/
theorem witness_DecoderFrameIsDecode :
    State.reset.atDecStart ∧
      onEngine .dec [.decPush 0x56, .encPush 0x61, .decPush 0x09] = [0x56, 0x09].map Instr.decPush ∧
      ∃ t, runCommands ([.decPush 0x56, .encPush 0x61, .decPush 0x09] ++ [.decEnd]) State.reset = .next t ∧
        t.fault = false :=
  ⟨⟨rfl, rfl, rfl⟩, by decide, ⟨_, rfl, rfl⟩⟩

/-- `DecoderFrameCompletes`: `VPRom` with whitespace fills a buffer of four bytes exactly. -/
theorem witness_DecoderFrameCompletes :
    State.fault (.resetWith ⟨none, some 4, some 1⟩) = false ∧
      State.atDecStart (.resetWith ⟨none, some 4, some 1⟩) ∧
      State.decErrChar (.resetWith ⟨none, some 4, some 1⟩) = 0x00 ∧
      withinCap (some 4) (bufferedBytes [0x56, 0x20, 0x50, 0x52, 0x0D, 0x6F, 0x6D]) = true ∧
      withinCap (some 1) (State.unread (.resetWith ⟨none, some 4, some 1⟩) .dec + 1) = true :=
  ⟨rfl, ⟨rfl, rfl, rfl⟩, rfl, by decide, by decide⟩

/-- `EnginesRoundTripFrames`. -/
theorem witness_EnginesRoundTripFrames :
    smallCaps.fault = false ∧ (smallCaps.encAcc = [] ∧ smallCaps.encOut = []) ∧
      (smallCaps.decAcc = [] ∧ smallCaps.decOut = [] ∧ smallCaps.decFailed = false) ∧
      smallCaps.decErrChar = 0x00 ∧ withinCap smallCaps.caps.encFrameCap (encodeFrame [0x61]).length = true ∧
      withinCap smallCaps.caps.decFrameCap ([0x61] : List Byte).length = true ∧
      withinCap smallCaps.caps.logDepth (smallCaps.unread .enc + 1) = true ∧
      withinCap smallCaps.caps.logDepth (smallCaps.unread .dec + 1) = true := by decide

/-- `EnginesDoNotInterfere`. -/
theorem witness_EnginesDoNotInterfere :
    engineOf (.encPush 0x61) ≠ engineOf (.decPush 0x56) ∧
      ∃ t u, exec (.encPush 0x61) State.reset = .next t ∧ exec (.decPush 0x56) t = .next u ∧ u.fault = false :=
  ⟨by decide, _, _, rfl, rfl, rfl⟩

/-- `EngineLearnsNothingOfOthers`: two states that differ in another engine. -/
theorem witness_EngineLearnsNothingOfOthers :
    agreeOn (engineOf (.encPush 0x61)) State.reset { State.reset with decAcc := [31] } ∧
      ∃ t, exec (.encPush 0x61) State.reset = .next t :=
  ⟨⟨rfl, rfl, rfl, rfl, rfl, rfl⟩, _, rfl⟩

/-- `CapacityExcessIsRefused`: a state past each capacity by one block, and each log past its depth, with frame
capacities exceeded and with frame capacities exactly filled. -/
theorem witness_CapacityExcessIsRefused :
    noRoom.fault = false ∧ noRoom.encAcc = [0x61, 0x62, 0x63] ∧
      withinCap noRoom.caps.encFrameCap (noRoom.encOut.length + 5) = false ∧
      withinCap noRoom.caps.encFrameCap (noRoom.encOut.length + (encTail noRoom.encAcc).length) = false ∧
      c2d 0x6D = some 48 ∧ noRoom.decFailed = false ∧ noRoom.decAcc.length = 4 ∧
      withinCap noRoom.caps.decFrameCap (noRoom.decOut.length + 4) = false ∧
      withinCap noRoom.caps.decFrameCap (noRoom.decOut.length + (decTail noRoom.decAcc).length) = false ∧
      withinCap noRoom.caps.logDepth (noRoom.unread .lut + 1) = false ∧
      withinCap noRoom.caps.logDepth (noRoom.unread .enc + 1) = false ∧
      withinCap noRoom.caps.logDepth (noRoom.unread .dec + 1) = false ∧
      withinCap fullLogs.caps.logDepth (fullLogs.unread .enc + 1) = false ∧
      withinCap fullLogs.caps.logDepth (fullLogs.unread .dec + 1) = false ∧
      withinCap fullLogs.caps.encFrameCap (fullLogs.encOut.length + (encTail fullLogs.encAcc).length) = true ∧
      withinCap fullLogs.caps.decFrameCap (fullLogs.decOut.length + (decTail fullLogs.decAcc).length) = true ∧
      { fullLogs with decAcc := [31] }.decAcc.length = 1 ∧ { fullLogs with decFailed := true }.decFailed = true := by
  decide

/-- What such a state does: `ENC_PUSH` is refused under the capacity's name. -/
theorem test_capacity_refusal : refusalOf (exec (.encPush 0x64) noRoom) = some .encFrameCapExceeded := by decide

/-- `CapacitiesChangeNoResult`: a bounded state that steps, and an unbounded one. -/
theorem witness_CapacitiesChangeNoResult :
    (∃ t, step midFrame = .next t) ∧ State.reset.caps = Capacities.unbounded := ⟨⟨_, rfl⟩, rfl⟩

/-- `RunSucceedsIffAllWordsDecode`: both sides of each clause have a state, and a run that succeeds. -/
theorem witness_RunSucceedsIffAllWordsDecode :
    State.reset.caps = Capacities.unbounded ∧ State.reset.fault = false ∧
      (∃ t, RunSucceeds [0x1061, 0x2000] State.reset t) ∧
      { faulted with caps := Capacities.unbounded }.fault = true :=
  ⟨rfl, rfl, ⟨_, rfl, rfl⟩, rfl⟩

/-- `AssembledLineIsCommandWord`: an operand of 97 in each form, a letter numeral in either case, an escape, and
the 0 an END command carries. -/
theorem witness_AssembledLineIsCommandWord :
    IsOperandText ['0', 'x', '0', '6', '1'] 97 ∧ IsOperandText ['0', '9', '7'] 97 ∧
      IsOperandText ['\'', 'a', '\''] 97 ∧ IsOperandText ['0', 'x', 'F', 'f'] 255 ∧
      IsOperandText ['\'', '\\', 't', '\''] 0x09 ∧ IsOperandText ['0'] 0 :=
  ⟨.inl ⟨1, ['0', '6', '1'], by decide, by decide⟩, .inr (.inl ⟨1, by decide⟩),
    .inr (.inr ⟨['a'], .inl ⟨by decide, by decide⟩, by decide⟩), .inl ⟨0, ['F', 'f'], by decide, by decide⟩,
    .inr (.inr ⟨['\\', 't'], .inr (by decide), by decide⟩), .inr (.inl ⟨0, by decide⟩)⟩

/-- `AssembledFrameIsPushesThenEnd`: a list of operands of different forms, and a string with each escape. -/
theorem witness_AssembledFrameIsPushesThenEnd :
    (∀ x ∈ ([(['9', '7'], 97), (['\'', 'a', '\''], 97)] : List (List Char × Byte)), IsOperandText x.1 x.2) ∧
      ∀ x ∈ (['~'], (0x7E : Byte)) :: escapeTexts, IsStringCharText x.1 x.2 := by
  constructor
  · intro x hx
    simp only [List.mem_cons, List.not_mem_nil, or_false] at hx
    rcases hx with rfl | rfl
    · exact .inr (.inl ⟨0, by decide⟩)
    · exact .inr (.inr ⟨['a'], .inl ⟨by decide, by decide⟩, by decide⟩)
  · intro x hx
    rcases List.mem_cons.1 hx with rfl | hx
    · exact ⟨.inl ⟨by decide, by decide⟩, by decide, by decide⟩
    · have hne : ∀ x ∈ escapeTexts, x.1 ≠ ['"'] ∧ x.1 ≠ ['\\'] := by decide
      exact ⟨.inr hx, hne x hx⟩

end Sys2Proof.Tests
end

section
/-! Family 10_state.md: the fault record (R27), which elements a command writes (R32), and the words the host reads
(R28, R29). -/

namespace Sys2Proof.Machine

/-! ### The frame of an engine's commands (R32) -/

/-- `t` differs from `s` in the elements of engine `e` only. The engines are named by their logs, as in `engineOf`. -/
structure WritesOnly (e : LogName) (s t : State) : Prop where
  encoder : e ≠ .enc → t.encAcc = s.encAcc ∧ t.encOut = s.encOut ∧ t.encRes = s.encRes
  decoder : e ≠ .dec → t.decAcc = s.decAcc ∧ t.decOut = s.decOut ∧ t.decFailed = s.decFailed ∧
    t.decErrChar = s.decErrChar ∧ t.decRes = s.decRes
  mapper : e ≠ .lut → t.lutRes = s.lutRes
  faults : t.fault = s.fault ∧ t.faultCause = s.faultCause ∧ t.faultWord = s.faultWord
  own : t.reads = s.reads ∧ t.caps = s.caps ∧ t.pending = s.pending

namespace WritesOnly

theorem refl (e : LogName) (s : State) : WritesOnly e s s := by constructor <;> simp

theorem setEncoder (acc out : List Byte) (s : State) : WritesOnly .enc s (s.setEncoder acc out) := by
  constructor <;> simp

theorem setDecoder (acc : List Digit) (out : List Byte) (s : State) : WritesOnly .dec s (s.setDecoder acc out) := by
  constructor <;> simp

theorem setDecLatch (failed : Bool) (c : Byte) (s : State) : WritesOnly .dec s (s.setDecLatch failed c) := by
  constructor <;> simp

theorem pushEncRes (r : List Byte) (s : State) : WritesOnly .enc s (s.pushEncRes r) := by constructor <;> simp

theorem pushDecRes (r : DecResult) (s : State) : WritesOnly .dec s (s.pushDecRes r) := by constructor <;> simp

theorem pushLutRes (r : LutResult) (s : State) : WritesOnly .lut s (s.pushLutRes r) := by constructor <;> simp

theorem trans {e : LogName} {s t u : State} (h : WritesOnly e s t) (h' : WritesOnly e t u) : WritesOnly e s u where
  encoder he := by simp [h'.encoder he, h.encoder he]
  decoder he := by simp [h'.decoder he, h.decoder he]
  mapper he := (h'.mapper he).trans (h.mapper he)
  faults := by simp [h'.faults, h.faults]
  own := by simp [h'.own, h.own]

end WritesOnly

/-- A word spells well-formed commands only: the decoder has checked the digit (R63). -/
theorem wellFormed_of_decode {w : CmdWord} {i : Instr} (h : decode w = .ok i) : i.wellFormed = true := by
  obtain ⟨o, -, -, -, hdigit, rfl⟩ := decode_eq_ok h
  cases o with
  | mapD2C => exact decide_eq_true (hdigit rfl)
  | _ => rfl

theorem execEncPush_writesOnly {b : Byte} {s t : State} (hs : s.fault = false) (h : execEncPush b s = .next t) :
    WritesOnly .enc s t := by
  rcases (execEncPush_eq_next hs).1 h with ⟨-, rfl⟩ | ⟨b0, b1, b2, -, -, rfl⟩
  · exact .setEncoder ..
  · exact .setEncoder ..

theorem execEncEnd_writesOnly {s t : State} (hs : s.fault = false) (h : execEncEnd s = .next t) :
    WritesOnly .enc s t := by
  obtain ⟨out, -, -, rfl⟩ := (execEncEnd_eq_next hs).1 h
  exact (WritesOnly.pushEncRes ..).trans (.setEncoder ..)

theorem execDecPush_writesOnly {c : Byte} {s t : State} (hs : s.fault = false) (h : execDecPush c s = .next t) :
    WritesOnly .dec s t := by
  rcases (execDecPush_eq_next hs).1 h with
    ⟨-, rfl⟩ | ⟨-, -, ⟨-, rfl⟩ | ⟨d, -, ⟨-, rfl⟩ | ⟨d0, d1, d2, d3, -, -, rfl⟩⟩⟩
  · exact .refl ..
  · exact (WritesOnly.setDecLatch ..).trans (.setDecoder ..)
  · exact .setDecoder ..
  · exact .setDecoder ..

theorem execDecEnd_writesOnly {s t : State} (hs : s.fault = false) (h : execDecEnd s = .next t) :
    WritesOnly .dec s t := by
  obtain ⟨r, -, -, rfl⟩ := (execDecEnd_eq_next hs).1 h
  exact ((WritesOnly.pushDecRes ..).trans (.setDecoder ..)).trans (.setDecLatch ..)

theorem execMapD2C_writesOnly {d : Byte} {s t : State} (hs : s.fault = false) (hd : d.toNat < 85)
    (h : execMapD2C d s = .next t) : WritesOnly .lut s t := by
  rcases (execMapD2C_eq_next hs).1 h with ⟨-, -, rfl⟩ | ⟨hge, -⟩
  · exact .pushLutRes ..
  · omega

theorem execMapC2D_writesOnly {c : Byte} {s t : State} (hs : s.fault = false) (h : execMapC2D c s = .next t) :
    WritesOnly .lut s t := by
  obtain ⟨-, rfl⟩ := (execMapC2D_eq_next hs).1 h
  exact .pushLutRes ..

/-- A well-formed command writes the elements of its own engine only. The ill-formed `mapD2C` writes the fault
elements as well. -/
theorem exec_writesOnly {i : Instr} {s t : State} (hs : s.fault = false) (hi : i.wellFormed = true)
    (h : exec i s = .next t) : WritesOnly (engineOf i) s t := by
  cases i with
  | encPush b => exact execEncPush_writesOnly hs h
  | encEnd => exact execEncEnd_writesOnly hs h
  | decPush c => exact execDecPush_writesOnly hs h
  | decEnd => exact execDecEnd_writesOnly hs h
  | mapD2C d => exact execMapD2C_writesOnly hs (by simpa [Instr.wellFormed] using hi) h
  | mapC2D c => exact execMapC2D_writesOnly hs h

/-! ### A faulted block (R27) -/

@[simp] theorem setReads_self (s : State) : s.setReads s.reads = s := rfl

/-- An action other than reset changes nothing of a faulted block but the host's own read counts. -/
theorem perform_of_fault {a : HostAction} {s t : State} (hs : s.fault = true) (ha : a ≠ .assertReset)
    (h : perform a s = .next t) : ∃ r, s.setReads r = t := by
  cases a with
  | command w => exact ⟨s.reads, by simpa [perform, execute, hs] using h⟩
  | readStatus => exact ⟨s.reads, by simpa [perform] using h⟩
  | readFaultInfo => exact ⟨s.reads, by simpa [perform] using h⟩
  | readLog l =>
    obtain rfl : s.takeOldest l = t := by simpa [perform] using h
    rcases takeOldest_eq l s with heq | ⟨-, heq⟩
    · exact ⟨s.reads, heq.symm⟩
    · exact ⟨_, heq.symm⟩
  | assertReset => exact absurd rfl ha

/-- A step of a faulted block whose host asserts no reset moves on in the host's script, counts its reads, and keeps
everything else; no reset comes into the script. -/
theorem step_of_fault {s t : State} (hs : s.fault = true) (hp : HostAction.assertReset ∉ s.pending)
    (h : step s = .next t) :
    ∃ rest r, HostAction.assertReset ∉ rest ∧ (s.setPending rest).setReads r = t := by
  rcases step_eq_next.1 h with ⟨-, rfl⟩ | ⟨a, rest, hcons, hperf⟩
  · exact ⟨s.pending, s.reads, hp, rfl⟩
  · rw [hcons, List.mem_cons, not_or] at hp
    obtain ⟨r, hr⟩ := perform_of_fault (s := s.setPending rest) hs (Ne.symm hp.1) hperf
    exact ⟨rest, r, hp.2, hr⟩

/-- `step_of_fault` along a run. -/
theorem run_of_fault {k : Nat} {s t : State} (hs : s.fault = true) (hp : HostAction.assertReset ∉ s.pending)
    (h : core.run k s = .next t) : ∃ rest r, (s.setPending rest).setReads r = t := by
  induction k generalizing s with
  | zero =>
    obtain rfl : s = t := Host.Outcome.next.inj h
    exact ⟨s.pending, s.reads, rfl⟩
  | succ k ih =>
    rw [core_run_succ] at h
    obtain ⟨u, hstep, hrun⟩ := andThen_eq_next.1 h
    obtain ⟨rest, r, hrest, rfl⟩ := step_of_fault hs hp hstep
    obtain ⟨rest', r', rfl⟩ := ih (by simpa using hs) (by simpa using hrest) hrun
    exact ⟨rest', r', rfl⟩

/-- A step whose host action is reset answers the reset state. -/
theorem step_of_reset {s : State} {rest : List HostAction} (h : s.pending = .assertReset :: rest) :
    step s = .next (s.setPending rest).afterReset :=
  step_eq_next.2 (.inr ⟨_, _, h, rfl⟩)

/-! ### The words the host reads (R28, R29) -/

/-- `STATUS` as a number: each field at the weight of its lowest bit. -/
theorem status_toNat (s : State) :
    s.status.toNat = s.decErrChar.toNat * 2 ^ 16 + s.decFailed.toNat * 2 ^ 8 + s.decAcc.length % 2 ^ 3 * 2 ^ 5 +
      s.encAcc.length % 2 ^ 2 * 2 ^ 3 + s.faultCause.code.toNat * 2 + s.fault.toNat := by
  have hzero : ∀ n, (0 : BitVec n).toNat = 0 := fun _ => BitVec.toNat_zero
  simp only [State.status, toNat_append_eq, BitVec.toNat_ofBool, hzero, BitVec.toNat_ofNat]
  omega

theorem faultInfo_toNat (s : State) : s.faultInfo.toNat = s.faultWord.toNat := by
  simp only [State.faultInfo, toNat_append_eq]
  simp

/-! ### The statements -/

/-- Settles O9: along every run of a faulted block only the host's script and its read counts change. -/
theorem faultRecordIsSticky : Obligations.FaultRecordIsSticky := by
  refine ⟨fun k s t hs hp h => ?_, fun s rest h => ?_⟩
  · obtain ⟨rest, r, rfl⟩ := run_of_fault hs hp h
    exact ⟨hs, rfl, rfl⟩
  · exact ⟨_, step_of_reset h, rfl, rfl, rfl⟩

/-- Settles O13: a word is discarded, writes the fault elements, or runs a well-formed command. -/
theorem wordsWriteOnlyTheirEngine : Obligations.WordsWriteOnlyTheirEngine := by
  intro w s t h
  rcases execute_eq_next.1 h with ⟨-, rfl⟩ | ⟨hs, ⟨e, hdec, rfl⟩ | ⟨i, hdec, hexec⟩⟩
  · simp
  · simp [hdec]
  · have hw := exec_writesOnly hs (wellFormed_of_decode hdec) hexec
    exact ⟨fun hi => hw.encoder (hi i hdec), fun hi => hw.decoder (hi i hdec), fun hi => hw.mapper (hi i hdec),
      fun _ => hw.faults, hw.own⟩

/-- Settles O14: the invariant bounds the two counts by their fields, so `status_toNat` splits at the fields. -/
theorem statusFieldsAreState : Obligations.StatusFieldsAreState := by
  refine ⟨fun s hinv => ?_, by decide⟩
  have henc := hinv.encoder.acc
  have hdec := hinv.decoder.acc
  have hchar := s.decErrChar.isLt
  have hcode := s.faultCause.code.isLt
  have hfailed := s.decFailed.toNat_le
  have hfault := s.fault.toNat_le
  have hstatus := status_toNat s
  have hcause : s.status.toNat / 2 ^ 1 % 2 ^ 2 = s.faultCause.code.toNat := by omega
  have herrChar : s.status.toNat / 2 ^ 16 % 2 ^ 8 = s.decErrChar.toNat := by omega
  refine ⟨by omega, ?_, by omega, by omega, hdec, by omega, by omega, herrChar, fun hf => ?_, by omega⟩
  · rw [hcause]
    cases s.faultCause <;> rfl
  · rw [herrChar, hinv.decoder.clean hf]
    rfl

/-- Settles O15: `FAULTINFO` is the 16-bit `FAULT_WORD` extended with zeros, and the reads answer the same state. -/
theorem faultInfoHoldsFaultWord : Obligations.FaultInfoHoldsFaultWord := by
  refine ⟨fun s => ⟨?_, ?_, rfl, rfl⟩, by decide⟩
  · rw [faultInfo_toNat, Nat.mod_eq_of_lt s.faultWord.isLt]
  · rw [faultInfo_toNat, Nat.div_eq_of_lt s.faultWord.isLt]

end Sys2Proof.Machine
end

section
/-! Family 30_encoding.md: the discard, the checks and the dispatch of `Execute(w)` (R63). -/

namespace Sys2Proof

/-! ### The decoder's branches

One lemma per check of R63, under the premise that the checks before it have passed. -/

/-- The illegal opcodes of R62. -/
theorem ofField_eq_none {f : BitVec 4} : Opcode.ofField f = none ↔ f.toNat = 0 ∨ 7 ≤ f.toNat := by
  revert f; decide

theorem decode_of_illegalOpcode {w : CmdWord} (h : (opcField w).toNat = 0 ∨ 7 ≤ (opcField w).toNat) :
    decode w = .error .illegalOpcode := by
  simp [decode, ofField_eq_none.2 h]

theorem exists_opcode_of_legal {f : BitVec 4} (h : 1 ≤ f.toNat ∧ f.toNat ≤ 6) : ∃ o : Opcode, f = o.field := by
  have hsome : Opcode.ofField f ≠ none := fun hnone => by have := ofField_eq_none.1 hnone; omega
  obtain ⟨o, ho⟩ := Option.ne_none_iff_exists'.1 hsome
  exact ⟨o, ofField_eq_some.1 ho⟩

section
variable {w : CmdWord} {o : Opcode} (ho : opcField w = o.field)
include ho

theorem decode_of_rsvField_ne_zero (hr : rsvField w ≠ 0) : decode w = .error .reservedField := by
  simp only [decode, ofField_eq_some.2 ho, if_pos hr]

theorem decode_of_operand_not_taken (hr : rsvField w = 0) (htake : o.takesOperand = false)
    (hop : operandField w ≠ 0) : decode w = .error .reservedField := by
  simp only [decode, ofField_eq_some.2 ho, if_neg (not_not.2 hr), if_pos (And.intro htake hop)]

/-- The converse of `decode_eq_ok`. -/
theorem decode_of_checks_pass (hr : rsvField w = 0) (htake : o.takesOperand = true ∨ operandField w = 0)
    (hdigit : o = .mapD2C → (operandField w).toNat < 85) : decode w = .ok (o.withOperand (operandField w)) := by
  have hend : ¬(o.takesOperand = false ∧ operandField w ≠ 0) := fun ⟨hno, hne⟩ =>
    htake.elim (fun hyes => by simp [hno] at hyes) hne
  have hrange : ¬(o = .mapD2C ∧ 85 ≤ (operandField w).toNat) := fun ⟨hmap, hge⟩ => absurd (hdigit hmap) (by omega)
  simp only [decode, ofField_eq_some.2 ho, if_neg (not_not.2 hr), if_neg hend, if_neg hrange]

end

theorem decode_of_digitRange {w : CmdWord} (ho : opcField w = Opcode.mapD2C.field) (hr : rsvField w = 0)
    (hop : 85 ≤ (operandField w).toNat) : decode w = .error .digitRange := by
  simp [decode, ofField_eq_some.2 ho, hr, hop, Opcode.takesOperand]

end Sys2Proof

namespace Sys2Proof.Machine

theorem execute_of_fault {s : State} (hs : s.fault = true) (w : CmdWord) : execute w s = .next s :=
  unlessFaulted_of_fault hs _

theorem execute_of_decode_error {w : CmdWord} {s : State} {e : DecodeError} (hs : s.fault = false)
    (h : decode w = .error e) : execute w s = raiseFault (faultCauseOf e) w s := by
  simp [execute, hs, h]

theorem execute_of_decode_ok {w : CmdWord} {s : State} {i : Instr} (hs : s.fault = false) (h : decode w = .ok i) :
    execute w s = exec i s := by
  simp [execute, hs, h]

theorem execute_of_checks_pass {w : CmdWord} {s : State} {o : Opcode} (hs : s.fault = false)
    (ho : opcField w = o.field) (hr : rsvField w = 0) (htake : o.takesOperand = true ∨ operandField w = 0)
    (hdigit : o = .mapD2C → (operandField w).toNat < 85) :
    execute w s = exec (o.withOperand (operandField w)) s :=
  execute_of_decode_ok hs (decode_of_checks_pass ho hr htake hdigit)

/-- Settles O3: each clause is one branch of the decoder, carried to `execute`. -/
theorem executeChecksWordsInOrder : Obligations.ExecuteChecksWordsInOrder := by
  intro w s opc rsv op hopc hrsv hop
  rw [← opcField_toNat] at hopc
  rw [← rsvField_toNat] at hrsv
  rw [← operandField_toNat] at hop
  subst hopc hrsv hop
  have hopcode : ∀ o : Opcode, (opcField w).toNat = o.field.toNat → opcField w = o.field :=
    fun _ => BitVec.eq_of_toNat_eq
  have hrsvZero : (rsvField w).toNat = 0 ↔ rsvField w = 0 := BitVec.toNat_inj (y := 0)
  have hopZero : (operandField w).toNat = 0 ↔ operandField w = 0 := BitVec.toNat_inj (y := 0)
  rw [BitVec.ofNat_toNat, BitVec.setWidth_eq]
  refine ⟨fun hs => execute_of_fault hs w, fun hs => ⟨fun hillegal => ?illegalOpcode, fun hlegal =>
    ⟨fun hr => ?rsvNotZero, fun hr => ?rsvZero⟩⟩⟩
  case illegalOpcode => exact execute_of_decode_error hs (decode_of_illegalOpcode hillegal)
  case rsvNotZero =>
    obtain ⟨o, ho⟩ := exists_opcode_of_legal hlegal
    exact execute_of_decode_error hs (decode_of_rsvField_ne_zero ho (mt hrsvZero.2 hr))
  case rsvZero =>
    have hr := hrsvZero.1 hr
    refine ⟨fun ⟨hend, hne⟩ => ?_, fun ⟨h, hge⟩ => ?_, fun h => ?_, fun ⟨h, h0⟩ => ?_, fun h => ?_,
      fun ⟨h, h0⟩ => ?_, fun ⟨h, hlt⟩ => ?_, fun h => ?_⟩
    · obtain ⟨o, ho, hnone⟩ : ∃ o : Opcode, opcField w = o.field ∧ o.takesOperand = false :=
        hend.elim (fun h => ⟨.encEnd, hopcode _ h, rfl⟩) (fun h => ⟨.decEnd, hopcode _ h, rfl⟩)
      exact execute_of_decode_error hs (decode_of_operand_not_taken ho hr hnone (mt hopZero.2 hne))
    · exact execute_of_decode_error hs (decode_of_digitRange (hopcode .mapD2C h) hr hge)
    · exact execute_of_checks_pass hs (hopcode .encPush h) hr (.inl rfl) nofun
    · exact execute_of_checks_pass hs (hopcode .encEnd h) hr (.inr (hopZero.1 h0)) nofun
    · exact execute_of_checks_pass hs (hopcode .decPush h) hr (.inl rfl) nofun
    · exact execute_of_checks_pass hs (hopcode .decEnd h) hr (.inr (hopZero.1 h0)) nofun
    · exact execute_of_checks_pass hs (hopcode .mapD2C h) hr (.inl rfl) fun _ => hlt
    · exact execute_of_checks_pass hs (hopcode .mapC2D h) hr (.inl rfl) nofun

end Sys2Proof.Machine
end

section
/-! Family 40_alphabet.md: the two tables are inverse to each other (R83), and the mapper commands (R90, R91). -/

namespace Sys2Proof.Machine

/-! ### The tables -/

/-! The rows of R81, one lemma per branch of `c2d`. -/

theorem d2c_decimal : ∀ k < 10, (d2c (digitOf k)).toNat = 0x30 + k := by decide

theorem d2c_upper : ∀ k < 26, (d2c (digitOf (k + 10))).toNat = 0x41 + k := by decide

theorem d2c_lower : ∀ k < 26, (d2c (digitOf (k + 36))).toNat = 0x61 + k := by decide

theorem d2c_punctuation : ∀ p ∈ c2dPunctuation, (d2c p.2).toNat = p.1 := by decide

/-- A character with a digit value is that digit's symbol. -/
theorem d2c_of_c2d {c : Byte} {d : Digit} (h : c2d c = some d) : d2c d = c := by
  apply BitVec.eq_of_toNat_eq
  simp only [c2d] at h
  split_ifs at h with hdec hup hlow
  · rw [← Option.some.inj h, d2c_decimal _ (by omega)]
    omega
  · rw [← Option.some.inj h, d2c_upper _ (by omega)]
    omega
  · rw [← Option.some.inj h, d2c_lower _ (by omega)]
    omega
  · obtain ⟨l, r, hrow, -⟩ := List.lookup_eq_some_iff.1 h
    exact d2c_punctuation (c.toNat, d) (by simp [hrow])

/-- `C2D` is the inverse of `D2C` on exactly the symbols (R83). -/
theorem c2d_eq_some {c : Byte} {d : Digit} : c2d c = some d ↔ d2c d = c := by
  constructor
  · exact d2c_of_c2d
  · rintro rfl
    exact c2d_d2c d

theorem c2d_eq_none {c : Byte} : c2d c = none ↔ ∀ d : Digit, d2c d ≠ c := by
  simp only [Option.eq_none_iff_forall_ne_some, ne_eq, c2d_eq_some]

theorem c2dRom_length : c2dRom.length = 256 := by simp [c2dRom]

theorem c2dRom_getElem? (c : Byte) : c2dRom[c.toNat]? = some (c2d c) := by
  have hc : c.toNat < 256 := c.isLt
  simp [c2dRom, hc]

theorem d2cRom_getElem? (d : Digit) : d2cRom[d.val]? = some (d2c d) := List.getElem?_eq_getElem _

/-! ### The mapper commands -/

/-- A legal opcode whose word has a reserved bit set raises RESERVED_FIELD (R63), with the fields as numbers. -/
theorem execute_of_reserved_bits {w : CmdWord} {s : State} {o : Opcode} (hs : s.fault = false)
    (ho : w.toNat / 2 ^ 12 = o.field.toNat) (hr : w.toNat / 2 ^ 8 % 2 ^ 4 ≠ 0) :
    execute w s = .next (s.setFault .reservedField w) := by
  rw [← opcField_toNat] at ho
  rw [← rsvField_toNat] at hr
  have hrsv : rsvField w ≠ 0 := fun h => hr (congrArg BitVec.toNat h)
  exact execute_of_decode_error hs (decode_of_rsvField_ne_zero (BitVec.eq_of_toNat_eq ho) hrsv)

theorem execute_encode_mapD2C_of_ge {d : Byte} {s : State} (hs : s.fault = false) (hd : 85 ≤ d.toNat) :
    execute (encode (.mapD2C d)) s = .next (s.setFault .digitRange (encode (.mapD2C d))) := by
  obtain ⟨hopc, hrsv, hop⟩ := fields_commandWord .mapD2C d
  exact execute_of_decode_error hs (decode_of_digitRange hopc hrsv (hop.symm ▸ hd))

/-- `MAP_D2C` of a digit, with room in the log (R90). -/
theorem exec_mapD2C_of_lt {d : Byte} {s : State} (hs : s.fault = false) (hd : d.toNat < 85)
    (hroom : withinCap s.caps.logDepth (s.unread .lut + 1) = true) :
    exec (.mapD2C d) s = .next (s.pushLutRes (.sym (d2c ⟨d.toNat, hd⟩))) :=
  (execMapD2C_eq_next hs).2 (.inl ⟨hd, hroom, rfl⟩)

/-- `MAP_C2D` with room in the log (R91). -/
theorem exec_mapC2D {c : Byte} {s : State} (hs : s.fault = false)
    (hroom : withinCap s.caps.logDepth (s.unread .lut + 1) = true) :
    exec (.mapC2D c) s = .next (s.pushLutRes ((c2d c).elim (.noDigit c) .digit)) :=
  (execMapC2D_eq_next hs).2 ⟨hroom, by cases c2d c <;> rfl⟩

/-! ### The statements -/

/-- Settles O18: `c2d_eq_some` makes the closed form of R84 the inverse, and `C2D_ROM` lists it by code. -/
theorem c2DInvertsD2C : Obligations.C2DInvertsD2C :=
  ⟨fun _ _ => c2d_eq_some, fun _ => c2d_eq_none, c2dRom_length, c2dRom_getElem?⟩

/-- Settles O19: the operand is a digit, or its word fails the digit check; a reserved bit fails the check before. -/
theorem mapD2CAppendsSymbol : Obligations.MapD2CAppendsSymbol := by
  intro d s hs
  refine ⟨commandWord_toNat .mapD2C d, fun hd hroom => ?_, fun hd => ?_, fun w hopc hrsv => ?_⟩
  · exact ⟨d2c ⟨d.toNat, hd⟩, d2cRom_getElem? ⟨d.toNat, hd⟩, exec_mapD2C_of_lt hs hd hroom⟩
  · exact execute_encode_mapD2C_of_ge hs hd
  · exact execute_of_reserved_bits (o := .mapD2C) hs hopc hrsv

/-- Settles O20: the entry of `C2D_ROM` is `C2D(c)`, which picks the result `exec_mapC2D` appends. -/
theorem mapC2DAppendsDigit : Obligations.MapC2DAppendsDigit := by
  intro c s hs
  rw [c2dRom_getElem?]
  refine ⟨commandWord_toNat .mapC2D c, fun d hentry hroom => ?_, fun hentry hroom => ?_, fun w hopc hrsv => ?_⟩
  · rw [exec_mapC2D hs hroom, Option.some.inj hentry]
    rfl
  · rw [exec_mapC2D hs hroom, Option.some.inj hentry]
    rfl
  · exact execute_of_reserved_bits (o := .mapC2D) hs hopc hrsv

end Sys2Proof.Machine
end

section
/-! Family 41_encoder.md: the code of a frame (R103 to R106) and the encoder commands (R108, R109). -/

namespace Sys2Proof.Machine

/-! ### The tail (R103) -/

theorem encTail_length {t : List Byte} (h : t.length ≤ 4) : (encTail t).length = t.length + 1 := by
  rw [encTail, List.length_take, encBlock_length]
  omega

/-- Zero bytes on the right of a list are what an index beyond its end reads. -/
theorem getD_append_zeros (t : List Byte) (n i : Nat) : (t ++ List.replicate n 0x00).getD i 0x00 = t.getD i 0x00 := by
  rcases Nat.lt_or_ge i t.length with h | h
  · exact List.getD_append _ _ _ _ h
  · rw [List.getD_append_right _ _ _ _ h, List.getD_eq_getElem?_getD,
      List.getElem?_getD_replicate_default_eq, List.getD_eq_default _ _ h]

theorem encTail_of_padded {t : List Byte} {n : Nat} {b0 b1 b2 b3 : Byte}
    (h : t ++ List.replicate n 0x00 = [b0, b1, b2, b3]) :
    encTail t = (encBlock b0 b1 b2 b3).take (t.length + 1) := by
  simp only [encTail, ← getD_append_zeros t n, h]
  rfl

/-! ### The alphabet (R106) -/

theorem d2c_printable (d : Digit) : 0x21 ≤ (d2c d).toNat ∧ (d2c d).toNat ≤ 0x7E := by revert d; decide

theorem mem_encBlock {b0 b1 b2 b3 c : Byte} (h : c ∈ encBlock b0 b1 b2 b3) : ∃ d : Digit, d2c d = c := by
  obtain ⟨d, -, hd⟩ := List.mem_map.1 h
  exact ⟨d, hd⟩

theorem mem_encTail {t : List Byte} {c : Byte} (h : c ∈ encTail t) : ∃ d : Digit, d2c d = c :=
  mem_encBlock (List.mem_of_mem_take h)

/-! ### The frame (R104 to R106) -/

/-- Settles O24: each whole block shifts the loop by one round and leaves the tail where it is. -/
theorem encodeIsBlockLoop : Obligations.EncodeIsBlockLoop := by
  intro bs
  induction bs using blocks_of_four with
  | nil => simp [encodeFrame]
  | one a => simp [encodeFrame]
  | two a b => simp [encodeFrame]
  | three a b c => simp [encodeFrame]
  | block a b c d l ih =>
    have hblocks : (a :: b :: c :: d :: l).length / 4 = l.length / 4 + 1 := by simp only [List.length_cons]; omega
    have hrest : (a :: b :: c :: d :: l).length % 4 = l.length % 4 := by simp only [List.length_cons]; omega
    rw [encodeFrame, ih, hblocks, hrest, List.range_succ_eq_map, List.flatMap_cons, List.flatMap_map,
      List.append_assoc]
    simp [Nat.mul_add]

/-- Settles O25: the loop adds five symbols a round, and the tail one more than its bytes. -/
theorem encodeLengthFormula : Obligations.EncodeLengthFormula := by
  intro bs
  have htail : (bs.drop (4 * (bs.length / 4))).length = bs.length % 4 := by rw [List.length_drop]; omega
  rw [encodeIsBlockLoop bs, List.length_append]
  congr 1
  · simp [List.length_flatMap, encBlock_length, Nat.mul_comm]
  · split_ifs
    · omega
    · rw [encTail_length (by omega), htail]
    · rfl
    · omega

/-- A symbol of a frame comes from a block of the loop or from the tail. -/
theorem mem_encodeFrame {bs : List Byte} {c : Byte} (h : c ∈ encodeFrame bs) : ∃ d : Digit, d2c d = c := by
  rw [encodeIsBlockLoop bs, List.mem_append, List.mem_flatMap] at h
  rcases h with ⟨k, -, hblock⟩ | htail
  · exact mem_encBlock hblock
  · split_ifs at htail
    · exact mem_encTail htail
    · simp at htail

/-- Settles O26: what `mem_encodeFrame` gives is a digit's symbol, and the 85 symbols have the bounds. -/
theorem encodeStaysInAlphabet : Obligations.EncodeStaysInAlphabet := by
  intro bs c hc
  obtain ⟨d, rfl⟩ := mem_encodeFrame hc
  exact ⟨List.getElem_mem _, isWS_d2c d, d2c_printable d⟩

/-- Settles O23: the premise names the padded bytes, which are what the tail reads. -/
theorem encTailPadsWithZeroBytes : Obligations.EncTailPadsWithZeroBytes :=
  fun _ _ _ _ _ _ hle hpad => ⟨encTail_of_padded hpad, encTail_length (by omega)⟩

/-! ### The encoder commands (R108, R109) -/

/-- `ENC_PUSH` of a block's fourth byte, with room in the frame (R108). -/
theorem exec_encPush_of_full {b b0 b1 b2 : Byte} {s : State} (hs : s.fault = false) (hacc : s.encAcc = [b0, b1, b2])
    (hroom : withinCap s.caps.encFrameCap (s.encOut.length + 5) = true) :
    exec (.encPush b) s = .next (s.setEncoder [] (s.encOut ++ encBlock b0 b1 b2 b)) :=
  (execEncPush_eq_next hs).2 (.inr ⟨b0, b1, b2, hacc, hroom, rfl⟩)

/-- `ENC_END` with room for the tail and in the log (R109). -/
theorem exec_encEnd {s : State} {out : List Byte} (hs : s.fault = false)
    (hout : (if s.encAcc.length = 0 then s.encOut else s.encOut ++ encTail s.encAcc) = out)
    (hframe : 0 < s.encAcc.length → withinCap s.caps.encFrameCap out.length = true)
    (hlog : withinCap s.caps.logDepth (s.unread .enc + 1) = true) :
    exec .encEnd s = .next ((s.pushEncRes out).setEncoder [] []) := by
  refine (execEncEnd_eq_next hs).2 ⟨out, ?_, hlog, rfl⟩
  split_ifs at hout with hempty
  · exact .inl ⟨List.length_eq_zero_iff.1 hempty, hout⟩
  · exact .inr ⟨mt List.length_eq_zero_iff.2 hempty, hout, hframe (by omega)⟩

/-- An END command's word with any bit set below its opcode raises RESERVED_FIELD (R63), with the fields as
numbers. -/
theorem execute_of_end_bits {w : CmdWord} {s : State} {o : Opcode} (hs : s.fault = false)
    (htake : o.takesOperand = false) (ho : w.toNat / 2 ^ 12 = o.field.toNat) (hbits : w.toNat % 2 ^ 12 ≠ 0) :
    execute w s = .next (s.setFault .reservedField w) := by
  by_cases hr : w.toNat / 2 ^ 8 % 2 ^ 4 = 0
  · have hop : w.toNat % 2 ^ 8 ≠ 0 := by omega
    rw [← opcField_toNat] at ho
    rw [← rsvField_toNat] at hr
    rw [← operandField_toNat] at hop
    exact execute_of_decode_error hs (decode_of_operand_not_taken (BitVec.eq_of_toNat_eq ho)
      (BitVec.eq_of_toNat_eq hr) htake fun h => hop (congrArg BitVec.toNat h))
  · exact execute_of_reserved_bits hs ho hr

/-- Settles O27: the byte joins the accumulator or fills the block; a reserved bit fails the check before. -/
theorem encPushAppendsByte : Obligations.EncPushAppendsByte := by
  intro b s hs
  refine ⟨commandWord_toNat .encPush b, fun hacc => ?_, fun b0 b1 b2 hacc hroom => ?_, fun w hopc hrsv => ?_⟩
  · exact execEncPush_partial hs hacc
  · exact exec_encPush_of_full hs hacc hroom
  · exact execute_of_reserved_bits (o := .encPush) hs hopc hrsv

/-- Settles O28: `exec_encEnd` delivers the frame, and a word with a bit below its opcode fails a check before. -/
theorem encEndDeliversFrame : Obligations.EncEndDeliversFrame := by
  intro s out hs hout
  refine ⟨commandWord_toNat .encEnd 0, fun hframe hlog => ?_, fun w hopc hbits => ?_⟩
  · exact exec_encEnd hs hout hframe hlog
  · exact execute_of_end_bits (o := .encEnd) hs rfl hopc hbits

end Sys2Proof.Machine
end

section
/-! Family 42_decoder.md: the bytes of a group and of a tail (R122, R123), the frame rule (R126), and the decoder
commands (R131, R132). -/

namespace Sys2Proof.Machine

/-! ### The group (R122) -/

/-- `Pack4` is the big-endian sum (R42): the shifted bytes do not overlap. -/
theorem pack4_eq_sum (b0 b1 b2 b3 : Byte) :
    pack4 b0 b1 b2 b3 = b0.toNat * 2 ^ 24 + b1.toNat * 2 ^ 16 + b2.toNat * 2 ^ 8 + b3.toNat := by
  have happend : pack4 b0 b1 b2 b3 = (b0 ++ b1 ++ b2 ++ b3).toNat := by
    simp only [pack4, BitVec.toNat_append, Nat.shiftLeft_or_distrib, ← Nat.shiftLeft_add]
  rw [happend, toNat_append_eq, toNat_append_eq, toNat_append_eq]
  omega

/-- Packing what `Bytes4` unpacks keeps the low 32 bits. -/
theorem pack4_of_bytes4 {v : Nat} {b0 b1 b2 b3 : Byte} (h : bytes4 v = [b0, b1, b2, b3]) :
    pack4 b0 b1 b2 b3 = v % 2 ^ 32 := by
  rw [bytes4_eq_div] at h
  cases h
  simp only [pack4_eq_sum, BitVec.toNat_ofNat]
  omega

/-- `Bytes4` reads the low 32 bits only. -/
theorem bytes4_mod (v : Nat) : bytes4 (v % 2 ^ 32) = bytes4 v := by
  simp only [bytes4_eq_div, List.cons.injEq, ← BitVec.toNat_inj, BitVec.toNat_ofNat, and_true]
  omega

/-- Settles O32: `Bytes4` and `Pack4` both see the sum mod 2^32 only. -/
theorem decBlockWrapsAt32Bits : Obligations.DecBlockWrapsAt32Bits := by
  intro d0 d1 d2 d3 d4
  exact ⟨rfl, (bytes4_mod _).symm, _, _, _, _, rfl, pack4_of_bytes4 rfl⟩

/-! ### The tail (R123) -/

theorem decTail_length {t : List Digit} (h : t.length ≤ 5) : (decTail t).length = t.length - 1 := by
  rw [decTail, List.length_take, decBlock_length]
  omega

/-- Default values on the right of a list are what an index beyond its end reads: `getD_append_zeros` for any
default. -/
theorem getD_append_replicate {α : Type} (t : List α) (a : α) (n i : Nat) :
    (t ++ List.replicate n a).getD i a = t.getD i a := by
  rcases Nat.lt_or_ge i t.length with h | h
  · exact List.getD_append _ _ _ _ h
  · rw [List.getD_append_right _ _ _ _ h, List.getD_eq_getElem?_getD,
      List.getElem?_getD_replicate_default_eq, List.getD_eq_default _ _ h]

theorem decTail_of_padded {t : List Digit} {n : Nat} {d0 d1 d2 d3 d4 : Digit}
    (h : t ++ List.replicate n padDigit = [d0, d1, d2, d3, d4]) :
    decTail t = (decBlock d0 d1 d2 d3 d4).take (t.length - 1) := by
  simp only [decTail, ← getD_append_replicate t padDigit n, h]
  rfl

/-- Settles O33: the premise names the padded digits, which are what the tail reads. -/
theorem decTailPadsWithMaximumDigit : Obligations.DecTailPadsWithMaximumDigit :=
  fun _ _ _ _ _ _ _ hle hpad => ⟨decTail_of_padded hpad, decTail_length (by omega)⟩

/-! ### The frame (R126) -/

/-- The whitespace set of R88 as the list of its codes. -/
theorem isWS_eq_true {c : Byte} : isWS c = true ↔ c ∈ ([0x20, 0x0A, 0x0B, 0x0D] : List Byte) := by
  simp [isWS, or_assoc]

theorem isWS_eq_false {c : Byte} : isWS c = false ↔ c ∉ ([0x20, 0x0A, 0x0B, 0x0D] : List Byte) := by
  rw [← isWS_eq_true, Bool.not_eq_true]

theorem symbolPositions_eq_filter (cs : List Byte) :
    symbolPositions cs = cs.filter fun c => c ∉ ([0x20, 0x0A, 0x0B, 0x0D] : List Byte) := by
  refine List.filter_congr fun c _ => ?_
  rw [Bool.eq_iff_iff, decide_eq_true_eq, ← isWS_eq_false, Bool.not_eq_true']

/-- The symbols are the entries of `D2C_ROM`. -/
theorem mem_d2cRom {c : Byte} : c ∈ d2cRom ↔ ∃ d : Digit, d2c d = c := by
  constructor
  · intro h
    obtain ⟨n, hn, rfl⟩ := List.mem_iff_getElem.1 h
    exact ⟨⟨n, d2cRom_length ▸ hn⟩, rfl⟩
  · rintro ⟨d, rfl⟩
    exact List.getElem_mem _

/-- A character is invalid exactly when it is no symbol. -/
theorem c2d_isNone {c : Byte} : (c2d c).isNone = true ↔ c ∉ d2cRom := by
  rw [Option.isNone_iff_eq_none, c2d_eq_none, mem_d2cRom, not_exists]

theorem decodeFrame_of_invalid {cs before after : List Byte} {c : Byte}
    (hs : symbolPositions cs = before ++ c :: after) (hc : c ∉ d2cRom) (hbefore : ∀ b ∈ before, b ∈ d2cRom) :
    decodeFrame cs = .invalidCharacter c := by
  have hfind : (symbolPositions cs).find? (fun c => (c2d c).isNone) = some c :=
    List.find?_eq_some_iff_append.2 ⟨c2d_isNone.2 hc, before, after, hs, fun b hb => by
      rw [Bool.not_eq_true', ← Bool.not_eq_true, c2d_isNone, not_not]; exact hbefore b hb⟩
  simp only [decodeFrame, hfind]

theorem decodeFrame_of_symbols {cs : List Byte} {ds : List Digit} (hs : symbolPositions cs = ds.map d2c) :
    decodeFrame cs = if ds.length % 5 = 1 then .unexpectedEof else .ok (decodeDigits ds) := by
  have hfind : (ds.map d2c).find? (fun c => (c2d c).isNone) = none := by simp [c2d_d2c]
  have hdigits : (ds.map d2c).filterMap c2d = ds := by simp [List.filterMap_map, c2d_d2c]
  simp only [decodeFrame, hs, hfind, hdigits]

/-- The bytes of a digit sequence as the loop of R126 over its whole groups, then the tail. -/
theorem decodeDigits_eq_loop {ds : List Digit} (h : ds.length % 5 ≠ 1) :
    decodeDigits ds =
      ((List.range (ds.length / 5)).flatMap fun k =>
        decBlock (ds.getD (5 * k) 0) (ds.getD (5 * k + 1) 0) (ds.getD (5 * k + 2) 0) (ds.getD (5 * k + 3) 0)
          (ds.getD (5 * k + 4) 0)) ++
      (if 2 ≤ ds.length % 5 then decTail (ds.drop (5 * (ds.length / 5))) else []) := by
  induction ds using groups_of_five with
  | nil => simp [decodeDigits]
  | one a => simp at h
  | two a b => simp [decodeDigits]
  | three a b c => simp [decodeDigits]
  | four a b c d => simp [decodeDigits]
  | group a b c d e l ih =>
    have hgroups : (a :: b :: c :: d :: e :: l).length / 5 = l.length / 5 + 1 := by
      simp only [List.length_cons]; omega
    have hrest : (a :: b :: c :: d :: e :: l).length % 5 = l.length % 5 := by simp only [List.length_cons]; omega
    rw [hrest] at h
    rw [decodeDigits, ih h, hgroups, hrest, List.range_succ_eq_map, List.flatMap_cons, List.flatMap_map,
      List.append_assoc]
    simp [Nat.mul_add]

/-- Settles O34: the two frame lemmas, for a frame with an invalid character and for one of symbols. -/
theorem decodeFollowsFrameRule : Obligations.DecodeFollowsFrameRule := by
  intro cs s hs
  rw [← symbolPositions_eq_filter] at hs
  subst hs
  refine ⟨fun before after c hsplit hc hbefore => ?_, fun ds hds => ⟨fun h => ?_, fun h => ?_⟩⟩
  · exact decodeFrame_of_invalid hsplit hc hbefore
  · rw [decodeFrame_of_symbols hds, if_pos h]
  · rw [decodeFrame_of_symbols hds, if_neg h, decodeDigits_eq_loop h]

/-! ### The decoder commands (R131, R132) -/

/-- `DEC_PUSH` in a failed frame, or of whitespace (R131). -/
theorem exec_decPush_of_ignored {c : Byte} {s : State} (hs : s.fault = false)
    (h : s.decFailed = true ∨ isWS c = true) : exec (.decPush c) s = .next s :=
  (execDecPush_eq_next hs).2 (.inl ⟨h, rfl⟩)

/-- `DEC_PUSH` of the first invalid character of a frame (R131). -/
theorem exec_decPush_of_invalid {c : Byte} {s : State} (hs : s.fault = false) (hf : s.decFailed = false)
    (hw : isWS c = false) (hc : c2d c = none) :
    exec (.decPush c) s = .next ((s.setDecLatch true c).setDecoder [] []) :=
  (execDecPush_eq_next hs).2 (.inr ⟨hf, hw, .inl ⟨hc, rfl⟩⟩)

theorem isWS_of_c2d {c : Byte} {d : Digit} (h : c2d c = some d) : isWS c = false := by
  rw [← d2c_of_c2d h, isWS_d2c]

/-- `DEC_PUSH` of a group's fifth symbol, with room in the frame (R131). -/
theorem exec_decPush_of_full {c : Byte} {d d0 d1 d2 d3 : Digit} {s : State} (hs : s.fault = false)
    (hf : s.decFailed = false) (hd : c2d c = some d) (hacc : s.decAcc = [d0, d1, d2, d3])
    (hroom : withinCap s.caps.decFrameCap (s.decOut.length + 4) = true) :
    exec (.decPush c) s = .next (s.setDecoder [] (s.decOut ++ decBlock d0 d1 d2 d3 d)) :=
  (execDecPush_eq_next hs).2
    (.inr ⟨hf, isWS_of_c2d hd, .inr ⟨d, hd, .inr ⟨d0, d1, d2, d3, hacc, hroom, rfl⟩⟩⟩)

/-- Settles O38: one lemma per case of the command; a reserved bit fails the check before. -/
theorem decPushTakesCharacter : Obligations.DecPushTakesCharacter := by
  intro c s hs
  rw [c2dRom_getElem?, ← isWS_eq_false, ← isWS_eq_true]
  refine ⟨commandWord_toNat .decPush c, fun hf => ?failed, fun _ hw => ?whitespace, fun hf hw hentry => ?invalid,
    fun d hf hentry => ⟨fun hacc => ?openGroup, fun d0 d1 d2 d3 hacc hroom => ?fullGroup⟩,
    fun w hopc hrsv => ?reserved⟩
  case failed => exact exec_decPush_of_ignored hs (.inl hf)
  case whitespace => exact exec_decPush_of_ignored hs (.inr hw)
  case invalid => exact exec_decPush_of_invalid hs hf hw (Option.some.inj hentry)
  case openGroup =>
    have hd := Option.some.inj hentry
    exact execDecPush_partial hs hf (isWS_of_c2d hd) hd hacc
  case fullGroup => exact exec_decPush_of_full hs hf (Option.some.inj hentry) hacc hroom
  case reserved => exact execute_of_reserved_bits (o := .decPush) hs hopc hrsv

/-- `DEC_END` with room for the tail and in the log (R132). -/
theorem exec_decEnd {s : State} {r : DecResult} {out : List Byte} (hs : s.fault = false)
    (hout : (if 2 ≤ s.decAcc.length then s.decOut ++ decTail s.decAcc else s.decOut) = out)
    (hr : (if s.decFailed = true then .invalidCharacter s.decErrChar
      else if s.decAcc.length = 1 then .unexpectedEof else .ok out) = r)
    (hframe : s.decFailed = false → 2 ≤ s.decAcc.length → withinCap s.caps.decFrameCap out.length = true)
    (hlog : withinCap s.caps.logDepth (s.unread .dec + 1) = true) :
    exec .decEnd s = .next (((s.pushDecRes r).setDecoder [] []).setDecLatch false 0x00) := by
  refine (execDecEnd_eq_next hs).2 ⟨r, ?_, hlog, rfl⟩
  split_ifs at hr with hfailed hlone
  · exact .inl ⟨hfailed, hr⟩
  · exact .inr (.inl ⟨Bool.eq_false_iff.2 hfailed, hlone, hr⟩)
  · have hlive := Bool.eq_false_iff.2 hfailed
    split_ifs at hout with htail
    · subst hout
      exact .inr (.inr (.inr ⟨hlive, htail, hr, List.length_append ▸ hframe hlive htail⟩))
    · have hempty : s.decAcc = [] := List.length_eq_zero_iff.1 (by omega)
      exact .inr (.inr (.inl ⟨hlive, hempty, hout ▸ hr⟩))

/-- Settles O39: `exec_decEnd` delivers the result, and a word with a bit below its opcode fails a check before. -/
theorem decEndDeliversResult : Obligations.DecEndDeliversResult := by
  intro s r out hs hout hr
  refine ⟨commandWord_toNat .decEnd 0, fun hframe hlog => ?_, fun w hopc hbits => ?_⟩
  · exact exec_decEnd hs hout hr hframe hlog
  · exact execute_of_end_bits (o := .decEnd) hs rfl hopc hbits

end Sys2Proof.Machine
end

section
/-! Family 60_exceptions.md: the block fault is precise (R154), and a faulted block discards every word (R155). -/

namespace Sys2Proof.Machine

/-- A faulted block discards every word of a run (R155). -/
theorem runWords_of_fault {s : State} (hs : s.fault = true) (ws : List CmdWord) : runWords ws s = .next s := by
  induction ws with
  | nil => rfl
  | cons w ws ih => exact runWords_cons_eq_next.2 ⟨s, execute_of_fault hs w, ih⟩

/-- Settles O7: the word raises the fault, and the faulted block discards the words after it. -/
theorem faultingWordIsRecordedPrecisely : Obligations.FaultingWordIsRecordedPrecisely := by
  intro w e s hdec hs
  have hexec : execute w s = .next (s.setFault (faultCauseOf e) w) := execute_of_decode_error hs hdec
  exact ⟨hexec, fun ws => runWords_cons_eq_next.2 ⟨_, hexec, runWords_of_fault rfl ws⟩⟩

end Sys2Proof.Machine
end

section
/-! Family other, encoding: `decode` and `encode` are inverse on the well-formed commands (R60 to R64), and a command
runs as its word does (R63), alone, in a step and in a run. -/

namespace Sys2Proof

/-! ### The word of a command -/

/-- A command is rebuilt from its opcode and its operand. -/
theorem withOperand_opcode (i : Instr) : i.opcode.withOperand i.operand = i := by cases i <;> rfl

/-- The word of the command an opcode and an operand spell, when no operand is dropped. -/
theorem encode_withOperand {o : Opcode} {op : Byte} (h : o.takesOperand = true ∨ op = 0) :
    encode (o.withOperand op) = commandWord o op := by
  cases o with
  | encEnd => rw [h.resolve_left nofun]; rfl
  | decEnd => rw [h.resolve_left nofun]; rfl
  | _ => rfl

theorem takesOperand_or_operand_eq_zero (i : Instr) : i.opcode.takesOperand = true ∨ i.operand = 0 := by
  cases i with
  | encEnd => exact .inr rfl
  | decEnd => exact .inr rfl
  | _ => exact .inl rfl

/-- Among the commands only `MAP_D2C` of 85 or more is ill-formed (R61). -/
theorem wellFormed_eq_false {i : Instr} : i.wellFormed = false ↔ ∃ d : Byte, i = .mapD2C d ∧ 85 ≤ d.toNat := by
  cases i <;> simp [Instr.wellFormed]

theorem operand_lt_of_wellFormed {i : Instr} (hi : i.wellFormed = true) (ho : i.opcode = .mapD2C) :
    i.operand.toNat < 85 := by
  cases i with
  | mapD2C d => exact of_decide_eq_true hi
  | _ => cases ho

theorem decode_encode {i : Instr} (hi : i.wellFormed = true) : decode (encode i) = .ok i := by
  obtain ⟨hopc, hrsv, hop⟩ := fields_commandWord i.opcode i.operand
  have hpass := decode_of_checks_pass hopc hrsv (hop.symm ▸ takesOperand_or_operand_eq_zero i)
    fun ho => hop.symm ▸ operand_lt_of_wellFormed hi ho
  rwa [hop, withOperand_opcode] at hpass

theorem decode_encode_mapD2C_of_ge {d : Byte} (hd : 85 ≤ d.toNat) :
    decode (encode (.mapD2C d)) = .error .digitRange := by
  obtain ⟨hopc, hrsv, hop⟩ := fields_commandWord .mapD2C d
  exact decode_of_digitRange hopc hrsv (hop.symm ▸ hd)

theorem encode_of_decode {w : CmdWord} {i : Instr} (h : decode w = .ok i) : encode i = w := by
  obtain ⟨o, hopc, hrsv, htake, -, rfl⟩ := decode_eq_ok h
  rw [encode_withOperand htake, commandWord_of_fields hopc hrsv]

/-- Settles O1: the fields of the word are the command's, so the checks pass unless the digit is out of range. -/
theorem decodeOfEncodeIsCommand : Obligations.DecodeOfEncodeIsCommand := by
  refine fun i => ⟨decode_encode, fun hi => ?_⟩
  obtain ⟨d, rfl, hd⟩ := wellFormed_eq_false.1 hi
  exact decode_encode_mapD2C_of_ge hd

/-- Settles O2: the fields of a word that decodes are all there is of it. -/
theorem encodeOfDecodeIsWord : Obligations.EncodeOfDecodeIsWord :=
  fun _ _ h => ⟨encode_of_decode h, Machine.wellFormed_of_decode h⟩

/-- Settles O4: the decoder evaluated on each word. -/
theorem sampleWordsDecode : Obligations.SampleWordsDecode := by
  unfold Obligations.SampleWordsDecode
  decide

end Sys2Proof

namespace Sys2Proof.Machine

/-! ### Running a command and running its word -/

/-- The ill-formed `MAP_D2C` raises DIGIT_RANGE with its own word (log entry 7). -/
theorem exec_mapD2C_of_ge {d : Byte} {s : State} (hs : s.fault = false) (hd : 85 ≤ d.toNat) :
    exec (.mapD2C d) s = .next (s.setFault .digitRange (encode (.mapD2C d))) :=
  (execMapD2C_eq_next hs).2 (.inr ⟨hd, rfl⟩)

theorem execute_encode (i : Instr) (s : State) : execute (encode i) s = exec i s := by
  cases hs : s.fault with
  | true => rw [execute_of_fault hs, exec_faulted i hs]
  | false =>
    cases hi : i.wellFormed with
    | true => exact execute_of_decode_ok hs (decode_encode hi)
    | false =>
      obtain ⟨d, rfl, hd⟩ := wellFormed_eq_false.1 hi
      rw [execute_encode_mapD2C_of_ge hs hd, exec_mapD2C_of_ge hs hd]

/-- A word that decodes runs its command, in a faulted state too. -/
theorem execute_of_decode {w : CmdWord} {i : Instr} (h : decode w = .ok i) (s : State) : execute w s = exec i s := by
  rw [← encode_of_decode h, execute_encode]

/-- A step whose next action is a command word executes it. -/
theorem step_of_command {w : CmdWord} {s : State} {rest : List HostAction} (h : s.pending = .command w :: rest) :
    step s = execute w (s.setPending rest) := by
  simp only [step, performNext, h, perform]

theorem step_withFetchWord (w : CmdWord) (s : State) : step (s.withFetchWord 16 w.toNat) = execute w s := by
  have hpending : (s.withFetchWord 16 w.toNat).pending = .command w :: s.pending := by
    have hw : BitVec.ofNat 16 (w.toNat % 2 ^ 16) = w := by
      rw [Nat.mod_eq_of_lt w.isLt, BitVec.ofNat_toNat, BitVec.setWidth_eq]
    simp only [State.withFetchWord, State.withCommandFirst, setPending_pending, hw]
  rw [step_of_command hpending]
  rfl

/-- Settles O6: `execute_encode`, by whether the block has faulted and whether the command is well-formed. -/
theorem executeOfEncodeIsExec : Obligations.ExecuteOfEncodeIsExec := execute_encode

/-- Settles O5: the step executes the word, which runs its command. -/
theorem stepRunsDecodedCommand : Obligations.StepRunsDecodedCommand := by
  refine fun w i s h => ⟨fun rest hp => ?_, ?_⟩
  · rw [step_of_command hp, execute_of_decode h]
    rfl
  · rw [step_withFetchWord, execute_of_decode h]

/-- Settles O48, by induction on the commands: each runs as its word. -/
theorem runOfEncodedCommands : Obligations.RunOfEncodedCommands := by
  intro is
  induction is with
  | nil => exact fun _ => rfl
  | cons i is ih =>
    intro s
    simp only [List.map_cons, runWords, runCommands, execute_encode]
    exact congrArg _ (funext ih)

end Sys2Proof.Machine
end

section
/-! Family other, the block between host actions: reads and reset (R56, R170), the faulted block (R155), the logs
(R26), and the invariant of 10_state.md rules R21, R22 and R27. -/

namespace Sys2Proof.Machine

/-! ### Reads and reset -/

theorem count_bump (r : ReadCounts) (l l' : LogName) :
    (r.bump l).count l' = r.count l' + if l' = l then 1 else 0 := by cases l <;> cases l' <;> rfl

theorem count_bump_self (r : ReadCounts) (l : LogName) : (r.bump l).count l = r.count l + 1 := by simp [count_bump]

theorem count_bump_of_ne (r : ReadCounts) {l l' : LogName} (h : l' ≠ l) : (r.bump l).count l' = r.count l' := by
  simp [count_bump, h]

theorem takeOldest_of_none {l : LogName} {s : State} (h : s.unread l = 0) : s.takeOldest l = s := if_pos h

theorem takeOldest_of_unread {l : LogName} {s : State} (h : 0 < s.unread l) :
    s.takeOldest l = s.setReads (s.reads.bump l) := if_neg (by omega)

/-- Reading a log leaves all three logs as they are (log entry 5). -/
theorem takeOldest_logs (l : LogName) (s : State) :
    (s.takeOldest l).encRes = s.encRes ∧ (s.takeOldest l).decRes = s.decRes ∧ (s.takeOldest l).lutRes = s.lutRes := by
  rcases takeOldest_eq l s with h | ⟨-, h⟩ <;> rw [h] <;> exact ⟨rfl, rfl, rfl⟩

/-- Settles O17: the reply is the result at the read count, which the read then moves on. -/
theorem logReadsTakeOldestUnread : Obligations.LogReadsTakeOldestUnread := by
  refine fun s l => ⟨by simp [replyTo], fun h => ?_, fun h => ?_⟩
  · exact congrArg _ (takeOldest_of_none h)
  · exact ⟨s.reads.bump l, congrArg _ (takeOldest_of_unread h), count_bump_self _ _, fun l' => count_bump_of_ne _⟩

/-- Settles O10: the state after reset has every element written out. -/
theorem resetClearsEveryElement : Obligations.ResetClearsEveryElement :=
  fun s => ⟨s.afterReset, rfl, rfl, rfl, rfl, rfl, rfl, rfl, rfl, rfl, rfl, rfl, rfl, rfl,
    statusFieldsAreState.2, faultInfoHoldsFaultWord.2, rfl⟩

/-! ### The faulted block (R155) -/

/-- Settles O8: words are discarded, and every other action but reset writes nothing but the host's read counts. -/
theorem faultedBlockDiscardsCommands : Obligations.FaultedBlockDiscardsCommands := by
  refine fun s hs => ⟨fun ws => ⟨runWords_of_fault hs ws, ?noSuccess⟩, fun l => ⟨rfl, rfl, ?logsStay⟩,
    ⟨rfl, rfl, rfl, rfl, rfl⟩, fun a t h => ⟨fun ht => ?onlyReset, ?resetClears⟩⟩
  case noSuccess =>
    rintro ⟨t, hrun, ht⟩
    cases (runWords_of_fault hs ws).symm.trans hrun
    exact Bool.false_ne_true (ht.symm.trans hs)
  case logsStay => exact ⟨_, rfl, takeOldest_logs l s⟩
  case onlyReset =>
    by_contra ha
    obtain ⟨r, rfl⟩ := perform_of_fault hs ha h
    exact Bool.false_ne_true (ht.symm.trans hs)
  case resetClears =>
    rintro rfl
    cases h
    rfl

/-! ### The logs (R26) -/

/-- `t` has one result more than `s` in at most one log. -/
def AppendsAtMostOne (s t : State) : Prop :=
  (t.encRes = s.encRes ∧ t.decRes = s.decRes ∧ t.lutRes = s.lutRes) ∨
  (∃ r, t.encRes = s.encRes ++ [r] ∧ t.decRes = s.decRes ∧ t.lutRes = s.lutRes) ∨
  (∃ r, t.encRes = s.encRes ∧ t.decRes = s.decRes ++ [r] ∧ t.lutRes = s.lutRes) ∨
  (∃ r, t.encRes = s.encRes ∧ t.decRes = s.decRes ∧ t.lutRes = s.lutRes ++ [r])

/-- The pushes append nothing, and each of the other commands appends to its engine's log. -/
theorem exec_appendsAtMostOne {i : Instr} {s t : State} (hs : s.fault = false) (h : exec i s = .next t) :
    AppendsAtMostOne s t := by
  cases i with
  | encPush b =>
    rcases (execEncPush_eq_next hs).1 h with ⟨-, rfl⟩ | ⟨b0, b1, b2, -, -, rfl⟩ <;> exact .inl ⟨rfl, rfl, rfl⟩
  | encEnd =>
    obtain ⟨out, -, -, rfl⟩ := (execEncEnd_eq_next hs).1 h
    exact .inr (.inl ⟨out, rfl, rfl, rfl⟩)
  | decPush c =>
    rcases (execDecPush_eq_next hs).1 h with
      ⟨-, rfl⟩ | ⟨-, -, ⟨-, rfl⟩ | ⟨d, -, ⟨-, rfl⟩ | ⟨d0, d1, d2, d3, -, -, rfl⟩⟩⟩ <;> exact .inl ⟨rfl, rfl, rfl⟩
  | decEnd =>
    obtain ⟨r, -, -, rfl⟩ := (execDecEnd_eq_next hs).1 h
    exact .inr (.inr (.inl ⟨r, rfl, rfl, rfl⟩))
  | mapD2C d =>
    rcases (execMapD2C_eq_next hs).1 h with ⟨_, -, rfl⟩ | ⟨-, rfl⟩
    · exact .inr (.inr (.inr ⟨_, rfl, rfl, rfl⟩))
    · exact .inl ⟨rfl, rfl, rfl⟩
  | mapC2D c =>
    obtain ⟨-, rfl⟩ := (execMapC2D_eq_next hs).1 h
    exact .inr (.inr (.inr ⟨_, rfl, rfl, rfl⟩))

/-- Settles O16: a word that is not discarded runs a command or writes the fault elements. -/
theorem logsAreAppendOnly : Obligations.LogsAreAppendOnly := by
  refine ⟨fun w s t h => ?_, fun a s t hcommand hreset h => ?_⟩
  · rcases execute_eq_next.1 h with ⟨-, rfl⟩ | ⟨hs, ⟨e, -, rfl⟩ | ⟨i, -, hexec⟩⟩
    · exact .inl ⟨rfl, rfl, rfl⟩
    · exact .inl ⟨rfl, rfl, rfl⟩
    · exact exec_appendsAtMostOne hs hexec
  · cases a with
    | command w => exact absurd rfl (hcommand w)
    | readStatus => cases h; exact ⟨rfl, rfl, rfl⟩
    | readFaultInfo => cases h; exact ⟨rfl, rfl, rfl⟩
    | readLog l => cases h; exact takeOldest_logs l s
    | assertReset => exact absurd rfl hreset

/-! ### The invariant: its parts under the updates -/

theorem withinCap_zero (cap : Option Nat) : withinCap cap 0 = true := by cases cap <;> simp [withinCap]

/-- Every encoded symbol is a symbol (R106). -/
theorem isSymbol_of_d2c {c : Byte} (h : ∃ d : Digit, d2c d = c) : isSymbol c = true := by
  obtain ⟨d, rfl⟩ := h
  simp [isSymbol, c2d_d2c]

/-- The encoder's part speaks of the encoder's elements and its capacity only. -/
theorem EncoderInv.of_writesOnly {e : LogName} {s t : State} (h : EncoderInv s) (hw : WritesOnly e s t)
    (he : e ≠ .enc) : EncoderInv t := by
  obtain ⟨hacc, hout, hres⟩ := hw.encoder he
  obtain ⟨-, hcaps, -⟩ := hw.own
  constructor <;> simp only [hacc, hout, hres, hcaps]
  exacts [h.acc, h.out, h.symbols, h.delivered, h.cap]

theorem DecoderInv.of_writesOnly {e : LogName} {s t : State} (h : DecoderInv s) (hw : WritesOnly e s t)
    (he : e ≠ .dec) : DecoderInv t := by
  obtain ⟨hacc, hout, hfailed, hchar, -⟩ := hw.decoder he
  obtain ⟨-, hcaps, -⟩ := hw.own
  constructor <;> simp only [hacc, hout, hfailed, hchar, hcaps]
  exacts [h.acc, h.out, h.failed, h.clean, h.cap]

theorem FaultInv.of_writesOnly {e : LogName} {s t : State} (h : FaultInv s) (hw : WritesOnly e s t) :
    FaultInv t := by
  obtain ⟨hfault, hcause, hword⟩ := hw.faults
  constructor <;> simp only [hfault, hcause, hword]
  exacts [h.clear, h.record]

/-- `t`'s log `l` is as long as `s`'s, or longer by a result for which there was room. -/
def GrowsWithinDepth (s t : State) (l : LogName) : Prop :=
  t.logLength l = s.logLength l ∨
    (t.logLength l = s.logLength l + 1 ∧ withinCap s.caps.logDepth (s.unread l + 1) = true)

theorem exec_growsWithinDepth {i : Instr} {s t : State} (hs : s.fault = false) (h : exec i s = .next t)
    (l : LogName) : GrowsWithinDepth s t l := by
  cases i with
  | encPush b =>
    rcases (execEncPush_eq_next hs).1 h with ⟨-, rfl⟩ | ⟨b0, b1, b2, -, -, rfl⟩ <;> cases l <;> exact .inl rfl
  | encEnd =>
    obtain ⟨out, -, hroom, rfl⟩ := (execEncEnd_eq_next hs).1 h
    cases l with
    | enc => exact .inr ⟨pushEncRes_logLength_enc out s, hroom⟩
    | _ => exact .inl rfl
  | decPush c =>
    rcases (execDecPush_eq_next hs).1 h with
      ⟨-, rfl⟩ | ⟨-, -, ⟨-, rfl⟩ | ⟨d, -, ⟨-, rfl⟩ | ⟨d0, d1, d2, d3, -, -, rfl⟩⟩⟩ <;> cases l <;> exact .inl rfl
  | decEnd =>
    obtain ⟨r, -, hroom, rfl⟩ := (execDecEnd_eq_next hs).1 h
    cases l with
    | dec => exact .inr ⟨pushDecRes_logLength_dec r s, hroom⟩
    | _ => exact .inl rfl
  | mapD2C d =>
    rcases (execMapD2C_eq_next hs).1 h with ⟨_, hroom, rfl⟩ | ⟨-, rfl⟩
    · cases l with
      | lut => exact .inr ⟨pushLutRes_logLength_lut _ s, hroom⟩
      | _ => exact .inl rfl
    · cases l <;> exact .inl rfl
  | mapC2D c =>
    obtain ⟨hroom, rfl⟩ := (execMapC2D_eq_next hs).1 h
    cases l with
    | lut => exact .inr ⟨pushLutRes_logLength_lut _ s, hroom⟩
    | _ => exact .inl rfl

theorem LogInv.of_growsWithinDepth {s t : State} (h : LogInv s) (hgrow : ∀ l, GrowsWithinDepth s t l)
    (hreads : t.reads = s.reads) (hcaps : t.caps = s.caps) : LogInv t := by
  refine ⟨fun l => ?_, fun l => ?_⟩ <;> have hl := h.reads l <;> rcases hgrow l with hlen | ⟨hlen, hroom⟩
  · rw [hreads, hlen]; exact hl
  · rw [hreads, hlen]; omega
  · rw [hcaps, State.unread, hreads, hlen]; exact h.depth l
  · rw [hcaps, State.unread, hreads, hlen, Nat.sub_add_comm hl]; exact hroom

/-- Taking an unread result leaves fewer unread. -/
theorem LogInv.takeOldest {s : State} (h : LogInv s) (l : LogName) : LogInv (s.takeOldest l) := by
  rcases Nat.eq_zero_or_pos (s.unread l) with hzero | hunread
  · rwa [takeOldest_of_none hzero]
  · rw [takeOldest_of_unread hunread]
    have hlen : ∀ l', (s.setReads (s.reads.bump l)).logLength l' = s.logLength l' := fun l' => by cases l' <;> rfl
    have hcount : ∀ l', s.reads.count l' ≤ (s.reads.bump l).count l' ∧
        (s.reads.bump l).count l' ≤ s.logLength l' := fun l' => by
      have hl' := h.reads l'
      rw [count_bump]
      split_ifs with heq
      · subst heq
        simp only [State.unread] at hunread
        omega
      · exact ⟨le_rfl, hl'⟩
    refine ⟨fun l' => (hcount l').2.trans_eq (hlen l').symm, fun l' => withinCap_mono (h.depth l') ?_⟩
    have hfewer := (hcount l').1
    simp only [State.unread, hlen, setReads_reads]
    omega

/-! ### The invariant under the commands -/

theorem encBlock_isSymbol {b0 b1 b2 b3 c : Byte} (h : c ∈ encBlock b0 b1 b2 b3) : isSymbol c = true :=
  isSymbol_of_d2c (mem_encBlock h)

theorem EncoderInv.encPush {b : Byte} {s t : State} (h : EncoderInv s) (hs : s.fault = false)
    (hexec : execEncPush b s = .next t) : EncoderInv t := by
  rcases (execEncPush_eq_next hs).1 hexec with ⟨hopen, rfl⟩ | ⟨b0, b1, b2, -, hroom, rfl⟩
  · have hacc := h.acc
    exact ⟨by simp; omega, h.out, h.symbols, h.delivered, h.cap⟩
  · have hout := h.out
    refine ⟨by simp, by simp [encBlock_length]; omega, fun c hc => ?_, h.delivered,
      by simpa [encBlock_length] using hroom⟩
    exact (List.mem_append.1 hc).elim (h.symbols c) encBlock_isSymbol

theorem EncoderInv.encEnd {s t : State} (h : EncoderInv s) (hs : s.fault = false)
    (hexec : execEncEnd s = .next t) : EncoderInv t := by
  obtain ⟨out, hout, -, rfl⟩ := (execEncEnd_eq_next hs).1 hexec
  have hsymbols : ∀ c ∈ out, isSymbol c = true := by
    rcases hout with ⟨-, rfl⟩ | ⟨-, rfl, -⟩
    · exact h.symbols
    · exact fun c hc => (List.mem_append.1 hc).elim (h.symbols c) fun hc => isSymbol_of_d2c (mem_encTail hc)
  refine ⟨by simp, by simp, by simp, fun r hr => ?_, withinCap_zero _⟩
  rcases List.mem_append.1 hr with hr | hr
  · exact h.delivered r hr
  · exact List.mem_singleton.1 hr ▸ hsymbols

theorem DecoderInv.decPush {c : Byte} {s t : State} (h : DecoderInv s) (hs : s.fault = false)
    (hexec : execDecPush c s = .next t) : DecoderInv t := by
  rcases (execDecPush_eq_next hs).1 hexec with
    ⟨-, rfl⟩ | ⟨hf, hw, ⟨hc, rfl⟩ | ⟨d, -, ⟨hopen, rfl⟩ | ⟨d0, d1, d2, d3, -, hroom, rfl⟩⟩⟩
  · exact h
  · exact ⟨by simp, by simp, fun _ => ⟨rfl, rfl, hw, hc⟩, nofun, withinCap_zero _⟩
  · have hacc := h.acc
    exact ⟨by simp; omega, h.out, by simp [hf], h.clean, h.cap⟩
  · have hout := h.out
    exact ⟨by simp, by simp [decBlock_length]; omega, by simp [hf], h.clean, by simpa [decBlock_length] using hroom⟩

theorem DecoderInv.decEnd {s t : State} (hs : s.fault = false) (hexec : execDecEnd s = .next t) : DecoderInv t := by
  obtain ⟨r, -, -, rfl⟩ := (execDecEnd_eq_next hs).1 hexec
  exact ⟨by simp, by simp, nofun, fun _ => rfl, withinCap_zero _⟩

/-- A well-formed command keeps the invariant: each engine its own part, by what it writes, and the other parts by
what it leaves. -/
theorem exec_keepsInv {i : Instr} {s t : State} (h : Inv s) (hs : s.fault = false) (hi : i.wellFormed = true)
    (hexec : exec i s = .next t) : Inv t := by
  have hw := exec_writesOnly hs hi hexec
  obtain ⟨hreads, hcaps, -⟩ := hw.own
  refine ⟨?encoder, ?decoder, h.faults.of_writesOnly hw,
    h.logs.of_growsWithinDepth (exec_growsWithinDepth hs hexec) hreads hcaps⟩
  case encoder =>
    cases i with
    | encPush b => exact h.encoder.encPush hs hexec
    | encEnd => exact h.encoder.encEnd hs hexec
    | _ => exact h.encoder.of_writesOnly hw nofun
  case decoder =>
    cases i with
    | decPush c => exact h.decoder.decPush hs hexec
    | decEnd => exact DecoderInv.decEnd hs hexec
    | _ => exact h.decoder.of_writesOnly hw nofun

/-! ### The invariant under the host actions -/

/-- The host's own script is no part of the invariant. -/
theorem Inv.setPending {s : State} (h : Inv s) (as : List HostAction) : Inv (s.setPending as) where
  encoder := ⟨h.encoder.acc, h.encoder.out, h.encoder.symbols, h.encoder.delivered, h.encoder.cap⟩
  decoder := ⟨h.decoder.acc, h.decoder.out, h.decoder.failed, h.decoder.clean, h.decoder.cap⟩
  faults := ⟨h.faults.clear, h.faults.record⟩
  logs := h.logs.of_growsWithinDepth (fun l => by cases l <;> exact .inl rfl) rfl rfl

theorem Inv.setFault {w : CmdWord} {e : DecodeError} {s : State} (h : Inv s) (hdec : decode w = .error e) :
    Inv (s.setFault (faultCauseOf e) w) where
  encoder := ⟨h.encoder.acc, h.encoder.out, h.encoder.symbols, h.encoder.delivered, h.encoder.cap⟩
  decoder := ⟨h.decoder.acc, h.decoder.out, h.decoder.failed, h.decoder.clean, h.decoder.cap⟩
  faults := ⟨nofun, fun _ => ⟨e, hdec, rfl⟩⟩
  logs := h.logs.of_growsWithinDepth (fun l => by cases l <;> exact .inl rfl) rfl rfl

theorem Inv.takeOldest {s : State} (h : Inv s) (l : LogName) : Inv (s.takeOldest l) := by
  have hlogs := h.logs.takeOldest l
  rcases takeOldest_eq l s with heq | ⟨-, heq⟩ <;> rw [heq] at hlogs ⊢
  · exact h
  · exact ⟨⟨h.encoder.acc, h.encoder.out, h.encoder.symbols, h.encoder.delivered, h.encoder.cap⟩,
      ⟨h.decoder.acc, h.decoder.out, h.decoder.failed, h.decoder.clean, h.decoder.cap⟩,
      ⟨h.faults.clear, h.faults.record⟩, hlogs⟩

theorem inv_resetWith (c : Capacities) : Inv (State.resetWith c) where
  encoder := ⟨Nat.zero_le _, rfl, nofun, nofun, withinCap_zero _⟩
  decoder := ⟨Nat.zero_le _, rfl, nofun, fun _ => rfl, withinCap_zero _⟩
  faults := ⟨fun _ => ⟨rfl, rfl⟩, nofun⟩
  logs := ⟨fun l => by cases l <;> exact le_rfl, fun l => by cases l <;> exact withinCap_zero _⟩

theorem execute_keepsInv {w : CmdWord} {s t : State} (h : Inv s) (hexec : execute w s = .next t) : Inv t := by
  rcases execute_eq_next.1 hexec with ⟨-, rfl⟩ | ⟨hs, ⟨e, hdec, rfl⟩ | ⟨i, hdec, hexec⟩⟩
  · exact h
  · exact h.setFault hdec
  · exact exec_keepsInv h hs (wellFormed_of_decode hdec) hexec

theorem perform_keepsInv {a : HostAction} {s t : State} (h : Inv s) (hperf : perform a s = .next t) : Inv t := by
  cases a with
  | command w => exact execute_keepsInv h hperf
  | readStatus => cases hperf; exact h
  | readFaultInfo => cases hperf; exact h
  | readLog l => cases hperf; exact h.takeOldest l
  | assertReset => cases hperf; exact (inv_resetWith s.caps).setPending s.pending

/-- Settles O11: every sequence is empty, and size 0 is within every capacity. -/
theorem resetStateMeetsInvariant : Obligations.ResetStateMeetsInvariant := inv_resetWith

/-- Settles O12: a step waits or performs a host action, and each host action keeps the invariant. -/
theorem stepKeepsInvariant : Obligations.StepKeepsInvariant := by
  intro s t h hstep
  rcases step_eq_next.1 hstep with ⟨-, rfl⟩ | ⟨a, rest, -, hperf⟩
  · exact h
  · exact perform_keepsInv (h.setPending rest) hperf

end Sys2Proof.Machine
end

section
/-! Family other, codec: packing (R42, R43), the digits of a value (R100, R101), and what the frame functions undo
and keep (R128 to R130). -/

namespace Sys2Proof.Machine

/-! ### Packing (R42, R43) and digits (R101) -/

/-- Unpacking gives back the four packed bytes (R43). -/
theorem bytes4_pack4 (b0 b1 b2 b3 : Byte) : bytes4 (pack4 b0 b1 b2 b3) = [b0, b1, b2, b3] := by
  have := b0.isLt
  have := b1.isLt
  have := b2.isLt
  have := b3.isLt
  simp only [bytes4_eq_div, pack4_eq_sum, List.cons.injEq, ← BitVec.toNat_inj, BitVec.toNat_ofNat, and_true]
  omega

/-- The digits of a value below 2^32 as numbers, summed with their weights. -/
theorem digit_sum {v : Nat} (hv : v < 2 ^ 32) :
    v / 85 ^ 4 % 85 * 85 ^ 4 + v / 85 ^ 3 % 85 * 85 ^ 3 + v / 85 ^ 2 % 85 * 85 ^ 2 + v / 85 % 85 * 85 + v % 85 = v := by
  omega

/-- Settles O21: the bytes of the sum do not overlap, and `Bytes4` reads the low 32 bits only. -/
theorem packAndBytesAreInverse : Obligations.PackAndBytesAreInverse :=
  ⟨fun b0 b1 b2 b3 => ⟨pack4_eq_sum b0 b1 b2 b3, bytes4_pack4 b0 b1 b2 b3⟩,
    fun v => ⟨(bytes4_mod v).symm, _, _, _, _, rfl, pack4_of_bytes4 rfl⟩⟩

/-- Settles O22: five digits reach 85^5, which is more than 2^32. -/
theorem weightedSumInvertsDigits : Obligations.WeightedSumInvertsDigits := by
  intro v hv
  refine ⟨_, _, _, _, _, rfl, digit_sum hv, ?_⟩
  show v / 85 ^ 4 % 85 ≤ 82
  omega

/-! ### A decoded frame (R128, R130) -/

/-- `Decode` reads the symbol positions only. -/
theorem decodeFrame_congr {cs cs' : List Byte} (h : symbolPositions cs = symbolPositions cs') :
    decodeFrame cs = decodeFrame cs' := by
  simp only [decodeFrame, h]

/-- Settles O36: whitespace has no symbol positions. -/
theorem whitespaceDoesNotMatter : Obligations.WhitespaceDoesNotMatter := by
  intro xs ws ys hws
  have hnone : symbolPositions ws = [] := List.filter_eq_nil_iff.2 fun c hc => by simp [hws c hc]
  exact decodeFrame_congr (by simp [symbolPositions_append, hnone])

/-- Characters are all symbols, or there is a first among them that is none. -/
theorem symbols_or_first_invalid (l : List Byte) :
    (∃ ds : List Digit, l = ds.map d2c) ∨
      ∃ (ds : List Digit) (c : Byte) (after : List Byte), c ∉ d2cRom ∧ l = ds.map d2c ++ c :: after := by
  induction l with
  | nil => exact .inl ⟨[], rfl⟩
  | cons c l ih =>
    by_cases hc : c ∈ d2cRom
    · obtain ⟨d, rfl⟩ := mem_d2cRom.1 hc
      rcases ih with ⟨ds, rfl⟩ | ⟨ds, c, after, hc, rfl⟩
      · exact .inl ⟨d :: ds, rfl⟩
      · exact .inr ⟨d :: ds, c, after, hc, rfl⟩
    · exact .inr ⟨[], c, l, hc, rfl⟩

/-- `decodeFrame_of_invalid` with the symbols before the invalid character given by their digits. -/
theorem decodeFrame_of_first_invalid {cs after : List Byte} {ds : List Digit} {c : Byte} (hc : c ∉ d2cRom)
    (hs : symbolPositions cs = ds.map d2c ++ c :: after) : decodeFrame cs = .invalidCharacter c :=
  decodeFrame_of_invalid hs hc fun b hb => by
    obtain ⟨d, -, rfl⟩ := List.mem_map.1 hb
    exact List.getElem_mem _

/-- A frame that decodes to bytes is one of symbols, with no lone last one. -/
theorem symbols_of_decodeFrame_ok {cs bs : List Byte} (h : decodeFrame cs = .ok bs) :
    ∃ ds : List Digit, symbolPositions cs = ds.map d2c ∧ ds.length % 5 ≠ 1 ∧ decodeDigits ds = bs := by
  rcases symbols_or_first_invalid (symbolPositions cs) with ⟨ds, hds⟩ | ⟨ds, c, after, hc, hds⟩
  · rw [decodeFrame_of_symbols hds] at h
    split_ifs at h with hlone
    exact ⟨ds, hds, hlone, DecResult.ok.inj h⟩
  · rw [decodeFrame_of_first_invalid hc hds] at h
    cases h

/-- Each whole group gives four bytes, and a tail one less than its digits. -/
theorem decodeDigits_length (ds : List Digit) :
    (decodeDigits ds).length = 4 * (ds.length / 5) + (ds.length % 5 - 1) := by
  induction ds using groups_of_five with
  | nil => rfl
  | one a => simp [decodeDigits, decTail_length]
  | two a b => simp [decodeDigits, decTail_length]
  | three a b c => simp [decodeDigits, decTail_length]
  | four a b c d => simp [decodeDigits, decTail_length]
  | group a b c d e l ih =>
    simp only [decodeDigits, List.length_append, decBlock_length, ih, List.length_cons]
    omega

/-- Settles O35: the digits are as many as the symbol positions. -/
theorem decodeLengthFormula : Obligations.DecodeLengthFormula := by
  intro cs bs h
  obtain ⟨ds, hds, -, rfl⟩ := symbols_of_decodeFrame_ok h
  rw [hds, List.length_map, decodeDigits_length]
  split_ifs <;> omega

/-! ### Decoding an encoded frame (R129) -/

theorem pack4_lt (b0 b1 b2 b3 : Byte) : pack4 b0 b1 b2 b3 < 2 ^ 32 := by
  have := b0.isLt
  have := b1.isLt
  have := b2.isLt
  have := b3.isLt
  rw [pack4_eq_sum]
  omega

/-- The digits of a packed block give its bytes back. -/
theorem decBlock_of_digits5 {b0 b1 b2 b3 : Byte} {d0 d1 d2 d3 d4 : Digit}
    (h : digits5 (pack4 b0 b1 b2 b3) = [d0, d1, d2, d3, d4]) : decBlock d0 d1 d2 d3 d4 = [b0, b1, b2, b3] := by
  obtain ⟨e0, e1, e2, e3, e4, he, hval, -⟩ := weightedSumInvertsDigits _ (pack4_lt b0 b1 b2 b3)
  cases h.symm.trans he
  rw [decBlock, hval, bytes4_pack4]

/-- Digit 84 in place of the last digits of a packed block adds less than the weight of the last digit kept. -/
theorem digits5_pack4_fill (b0 b1 b2 b3 : Byte) {v : Nat} (hv : pack4 b0 b1 b2 b3 = v) :
    ∃ d0 d1 d2 d3 d4, digits5 v = [d0, d1, d2, d3, d4] ∧
      (v ≤ val5 d0 d1 84 84 84 ∧ val5 d0 d1 84 84 84 < v + 85 ^ 3) ∧
      (v ≤ val5 d0 d1 d2 84 84 ∧ val5 d0 d1 d2 84 84 < v + 85 ^ 2) ∧
      (v ≤ val5 d0 d1 d2 d3 84 ∧ val5 d0 d1 d2 d3 84 < v + 85) := by
  obtain ⟨d0, d1, d2, d3, d4, hd, hval, -⟩ := weightedSumInvertsDigits v (hv ▸ pack4_lt b0 b1 b2 b3)
  have h84 : (84 : Digit).val = 84 := rfl
  refine ⟨d0, d1, d2, d3, d4, hd, ?_⟩
  simp only [val5, h84] at hval ⊢
  omega

/-- Of a value that is a packed block and less than the weight of the last byte kept, these bytes are the block's. -/
theorem bytes4_take_of_fill {b0 b1 b2 b3 : Byte} {x n : Nat} (hn : n ≤ 4)
    (hzero : pack4 b0 b1 b2 b3 % 256 ^ (4 - n) = 0) (hle : pack4 b0 b1 b2 b3 ≤ x)
    (hlt : x < pack4 b0 b1 b2 b3 + 256 ^ (4 - n)) : (bytes4 x).take n = [b0, b1, b2, b3].take n := by
  rw [← bytes4_pack4 b0 b1 b2 b3]
  generalize pack4 b0 b1 b2 b3 = v at *
  interval_cases n <;> simp [bytes4_eq_div, ← BitVec.toNat_inj] at hzero hlt ⊢ <;> omega

/-- The digits kept of a padded tail give its bytes back (R103, R123): 85^3, 85^2 and 85 stay below 256^3, 256^2 and
256. -/
theorem decTail_take_digits5 {t : List Byte} (h1 : 1 ≤ t.length) (h3 : t.length ≤ 3) :
    decTail ((digits5 (pack4 (t.getD 0 0) (t.getD 1 0) (t.getD 2 0) (t.getD 3 0))).take (t.length + 1)) = t := by
  match t, h1, h3 with
  | [b0], _, _ =>
    obtain ⟨d0, d1, d2, d3, d4, hd, ⟨hle, hlt⟩, -⟩ := digits5_pack4_fill b0 0 0 0 rfl
    have hzero : pack4 b0 0 0 0 % 256 ^ 3 = 0 := by rw [pack4_eq_sum]; simp
    have htail : decTail [d0, d1] = [b0] := bytes4_take_of_fill (n := 1) (by decide) hzero hle (hlt.trans_le (by omega))
    exact (congrArg (fun ds => decTail (ds.take 2)) hd).trans htail
  | [b0, b1], _, _ =>
    obtain ⟨d0, d1, d2, d3, d4, hd, -, ⟨hle, hlt⟩, -⟩ := digits5_pack4_fill b0 b1 0 0 rfl
    have hzero : pack4 b0 b1 0 0 % 256 ^ 2 = 0 := by rw [pack4_eq_sum]; simp; omega
    have htail : decTail [d0, d1, d2] = [b0, b1] :=
      bytes4_take_of_fill (n := 2) (by decide) hzero hle (hlt.trans_le (by omega))
    exact (congrArg (fun ds => decTail (ds.take 3)) hd).trans htail
  | [b0, b1, b2], _, _ =>
    obtain ⟨d0, d1, d2, d3, d4, hd, -, -, hle, hlt⟩ := digits5_pack4_fill b0 b1 b2 0 rfl
    have hzero : pack4 b0 b1 b2 0 % 256 ^ 1 = 0 := by rw [pack4_eq_sum]; simp; omega
    have htail : decTail [d0, d1, d2, d3] = [b0, b1, b2] :=
      bytes4_take_of_fill (n := 3) (by decide) hzero hle (hlt.trans_le (by omega))
    exact (congrArg (fun ds => decTail (ds.take 4)) hd).trans htail

/-- The digits of a tail's code. -/
theorem encTail_digits {t : List Byte} (h1 : 1 ≤ t.length) (h3 : t.length ≤ 3) :
    ∃ ds : List Digit, encTail t = ds.map d2c ∧ ds.length = t.length + 1 ∧ decTail ds = t := by
  refine ⟨_, List.map_take.symm, ?_, decTail_take_digits5 h1 h3⟩
  rw [List.length_take]
  simp [digits5]
  omega

/-- The code of a frame as digits: no lone last one, and decoding to the frame's bytes. -/
theorem encodeFrame_digits (bs : List Byte) :
    ∃ ds : List Digit, encodeFrame bs = ds.map d2c ∧ ds.length % 5 ≠ 1 ∧ decodeDigits ds = bs := by
  have short : ∀ t : List Byte, 1 ≤ t.length → t.length ≤ 3 →
      ∃ ds : List Digit, encodeFrame t = ds.map d2c ∧ ds.length % 5 ≠ 1 ∧ decodeDigits ds = t := fun t h1 h3 => by
    obtain ⟨ds, hds, hlen, htail⟩ := encTail_digits h1 h3
    refine ⟨ds, ?_, by omega, ?_⟩
    · rw [encodeFrame_of_short h3, if_neg (List.ne_nil_of_length_pos h1), hds]
    · rw [decodeDigits_of_short (by omega), if_neg (List.ne_nil_of_length_pos (by omega)), htail]
  induction bs using blocks_of_four with
  | nil => exact ⟨[], rfl, by decide, rfl⟩
  | one a => exact short [a] (by simp) (by simp)
  | two a b => exact short [a, b] (by simp) (by simp)
  | three a b c => exact short [a, b, c] (by simp) (by simp)
  | block a b c d l ih =>
    obtain ⟨ds, hds, hlen, hdec⟩ := ih
    obtain ⟨d0, d1, d2, d3, d4, hd, -⟩ := weightedSumInvertsDigits _ (pack4_lt a b c d)
    refine ⟨d0 :: d1 :: d2 :: d3 :: d4 :: ds, ?_, by simp only [List.length_cons]; omega, ?_⟩
    · rw [encodeFrame, hds, encBlock, hd]
      rfl
    · rw [decodeDigits, hdec, decBlock_of_digits5 hd]
      rfl

/-- Settles O37: the symbols of the code map back to its digits, which decode to the bytes. -/
theorem decodeInvertsEncode : Obligations.DecodeInvertsEncode := by
  intro bs cs hcs
  obtain ⟨ds, hds, hlen, hdec⟩ := encodeFrame_digits bs
  rw [decodeFrame_of_symbols (hcs.trans hds), if_neg hlen, hdec]

end Sys2Proof.Machine
end

section
/-! Family other, frames: the pushes and the END command of an engine compute its frame function, with the commands
of the other engines in between (R110, R133), and a frame that fits runs to its end (R107). -/

namespace Sys2Proof.Machine

/-! ### Runs with the pushes of one engine -/

/-- A command that ends without a fault writes its own engine's elements only: the ill-formed `mapD2C` faults. -/
theorem exec_writesOnly_of_live {i : Instr} {s t : State} (h : exec i s = .next t) (ht : t.fault = false) :
    WritesOnly (engineOf i) s t := by
  have hs := exec_begins_live h ht
  cases hi : i.wellFormed with
  | true => exact exec_writesOnly hs hi h
  | false =>
    obtain ⟨d, rfl, hd⟩ := wellFormed_eq_false.1 hi
    rw [exec_mapD2C_of_ge hs hd] at h
    cases h
    cases ht

/-- What each push of engine `e` carries on, and what the other engines cannot touch, holds at the end of a run for
all the pushes in it. -/
theorem runCommands_tracks_pushes {e : LogName} {push : Byte → Instr} {P : List Byte → State → Prop}
    (hpush : ∀ {pre b s t}, s.fault = false → P pre s → exec (push b) s = .next t → P (pre ++ [b]) t)
    (hother : ∀ {pre e' s t}, e' ≠ e → WritesOnly e' s t → P pre s → P pre t)
    {is : List Instr} {pre bs : List Byte} {s t : State} (his : onEngine e is = bs.map push)
    (h : runCommands is s = .next t) (ht : t.fault = false) (hP : P pre s) : P (pre ++ bs) t := by
  induction is generalizing pre bs s with
  | nil =>
    cases h
    rwa [List.map_eq_nil_iff.1 his.symm, List.append_nil]
  | cons i is ih =>
    obtain ⟨u, hexec, hrun⟩ := runCommands_cons_eq_next.1 h
    have hu := runCommands_begins_live hrun ht
    by_cases hi : engineOf i = e
    · rw [onEngine, List.filter_cons_of_pos (by simpa using hi)] at his
      obtain ⟨b, bs, rfl, rfl, hrest⟩ := List.map_eq_cons_iff.1 his.symm
      rw [List.append_cons]
      exact ih hrest.symm hrun (hpush (exec_begins_live hexec hu) hP hexec)
    · rw [onEngine, List.filter_cons_of_neg (by simpa using hi)] at his
      exact ih his hrun (hother hi (exec_writesOnly_of_live hexec hu) hP)

/-- A run of pushes goes through when each push does from where the ones before it lead. -/
theorem runCommands_pushes_complete {push : Byte → Instr} {P : List Byte → State → Prop} {bs : List Byte}
    (hpush : ∀ {pre b post s}, pre ++ b :: post = bs → P pre s → ∃ t, exec (push b) s = .next t ∧ P (pre ++ [b]) t)
    {s : State} (hP : P [] s) : ∃ t, runCommands (bs.map push) s = .next t ∧ P bs t := by
  have key : ∀ (post pre : List Byte) (s : State), pre ++ post = bs → P pre s →
      ∃ t, runCommands (post.map push) s = .next t ∧ P bs t := fun post => by
    induction post with
    | nil => exact fun pre s hbs hP => ⟨s, rfl, by rwa [← hbs, List.append_nil]⟩
    | cons b post ih =>
      intro pre s hbs hP
      obtain ⟨u, hexec, hu⟩ := hpush hbs hP
      obtain ⟨t, hrun, ht⟩ := ih (pre ++ [b]) u (by rw [← hbs, ← List.append_cons]) hu
      exact ⟨t, runCommands_cons_eq_next.2 ⟨u, hexec, hrun⟩, ht⟩
  exact key bs [] s rfl hP

/-- A frame is its pushes and then its END command. -/
theorem runCommands_frame {is : List Instr} {last : Instr} {s t : State} :
    runCommands (is ++ [last]) s = .next t ↔ ∃ u, runCommands is s = .next u ∧ exec last u = .next t := by
  simp [runCommands_append, andThen_eq_next, runCommands]

/-! ### The encoder's frame (R110) -/

/-- The encoder after the pushes of `bs`: the code of whole blocks in the buffer, the rest in the accumulator, and the
log as it was. -/
structure EncoderHolds (res : List (List Byte)) (bs : List Byte) (s : State) : Prop where
  split : ∃ blocks, blocks.length % 4 = 0 ∧ blocks ++ s.encAcc = bs ∧ s.encOut = encodeFrame blocks
  acc : s.encAcc.length ≤ 3
  log : s.encRes = res

section
variable {res : List (List Byte)} {bs : List Byte} {b : Byte} {s t : State}

theorem encoderHolds_of_atEncStart (h : s.atEncStart) : EncoderHolds s.encRes [] s := by
  obtain ⟨hacc, hout⟩ := h
  exact ⟨⟨[], rfl, hacc, hout⟩, by simp [hacc], rfl⟩

theorem EncoderHolds.encPush (h : EncoderHolds res bs s) (hs : s.fault = false)
    (hexec : exec (.encPush b) s = .next t) : EncoderHolds res (bs ++ [b]) t := by
  obtain ⟨⟨blocks, hblocks, rfl, hout⟩, hacc, hlog⟩ := h
  rcases (execEncPush_eq_next hs).1 hexec with ⟨hopen, rfl⟩ | ⟨b0, b1, b2, hfull, -, rfl⟩
  · exact ⟨⟨blocks, hblocks, by simp, hout⟩, by simp; omega, hlog⟩
  · refine ⟨⟨blocks ++ [b0, b1, b2, b], by simp; omega, by simp [hfull], ?_⟩, by simp, hlog⟩
    rw [encodeFrame_append hblocks, setEncoder_encOut, hout]
    simp [encodeFrame]

theorem EncoderHolds.of_writesOnly {e : LogName} (h : EncoderHolds res bs s) (he : e ≠ .enc)
    (hw : WritesOnly e s t) : EncoderHolds res bs t := by
  obtain ⟨hacc, hout, hlog⟩ := hw.encoder he
  constructor <;> simp only [hacc, hout, hlog]
  exacts [h.split, h.acc, h.log]

/-- The whole blocks and the rest are where the length puts them. -/
theorem EncoderHolds.take_drop (h : EncoderHolds res bs s) :
    s.encOut = encodeFrame (bs.take (4 * (bs.length / 4))) ∧ s.encAcc = bs.drop (4 * (bs.length / 4)) := by
  obtain ⟨⟨blocks, hblocks, rfl, hout⟩, hacc, -⟩ := h
  have hlen : 4 * ((blocks ++ s.encAcc).length / 4) = blocks.length := by rw [List.length_append]; omega
  rw [hlen, List.take_left, List.drop_left]
  exact ⟨hout, rfl⟩

/-- `ENC_PUSH` goes through when there is room for the block it may fill. -/
theorem exists_exec_encPush (hs : s.fault = false)
    (hroom : s.encAcc.length = 3 → withinCap s.caps.encFrameCap (s.encOut.length + 5) = true) :
    ∃ t, exec (.encPush b) s = .next t := by
  by_cases hacc : s.encAcc.length = 3
  · obtain ⟨b0, b1, b2, hfull⟩ := List.length_eq_three.1 hacc
    exact ⟨_, exec_encPush_of_full hs hfull (hroom hacc)⟩
  · exact ⟨_, execEncPush_partial hs hacc⟩

/-- What `ENC_END` makes of buffer and accumulator is the code of the frame. -/
theorem EncoderHolds.encodeFrame_eq (h : EncoderHolds res bs s) :
    (if s.encAcc.length = 0 then s.encOut else s.encOut ++ encTail s.encAcc) = encodeFrame bs := by
  obtain ⟨⟨blocks, hblocks, rfl, hout⟩, hacc, -⟩ := h
  rw [encodeFrame_append hblocks, encodeFrame_of_short hacc, hout]
  simp only [List.length_eq_zero_iff]
  split_ifs with hempty
  · exact (List.append_nil _).symm
  · rfl

theorem EncoderHolds.encEnd (h : EncoderHolds res bs s) (hs : s.fault = false)
    (hexec : exec .encEnd s = .next t) : t.encRes = res ++ [encodeFrame bs] ∧ t.atEncStart := by
  obtain ⟨out, hout, -, rfl⟩ := (execEncEnd_eq_next hs).1 hexec
  have hframe : encodeFrame bs = out := by
    rw [← h.encodeFrame_eq]
    rcases hout with ⟨hempty, rfl⟩ | ⟨hrest, rfl, -⟩
    · rw [if_pos (List.length_eq_zero_iff.2 hempty)]
    · rw [if_neg (mt List.length_eq_zero_iff.1 hrest)]
  exact ⟨by rw [hframe, ← h.log]; rfl, rfl, rfl⟩

/-- A push has room when the code of the whole frame has. -/
theorem EncoderHolds.exists_encPush {post : List Byte} (h : EncoderHolds res bs s) (hs : s.fault = false)
    (hroom : withinCap s.caps.encFrameCap (encodeFrame (bs ++ b :: post)).length = true) :
    ∃ t, exec (.encPush b) s = .next t := by
  obtain ⟨⟨blocks, hblocks, rfl, hout⟩, -, -⟩ := h
  refine exists_exec_encPush hs fun hacc => withinCap_mono hroom ?_
  obtain ⟨b0, b1, b2, hfull⟩ := List.length_eq_three.1 hacc
  have hcode : encodeFrame (blocks ++ s.encAcc ++ b :: post) =
      s.encOut ++ (encBlock b0 b1 b2 b ++ encodeFrame post) := by
    rw [List.append_assoc, encodeFrame_append hblocks, hfull, hout]
    rfl
  rw [hcode, List.length_append, List.length_append, encBlock_length]
  omega

theorem EncoderHolds.exists_encEnd (h : EncoderHolds res bs s) (hs : s.fault = false)
    (hroom : withinCap s.caps.encFrameCap (encodeFrame bs).length = true)
    (hlog : withinCap s.caps.logDepth (s.unread .enc + 1) = true) : ∃ t, exec .encEnd s = .next t :=
  ⟨_, exec_encEnd hs h.encodeFrame_eq (fun _ => hroom) hlog⟩

/-- The encoder's elements at the end of a run of its pushes among other commands. -/
theorem encoderHolds_of_run {is : List Instr} (hstart : s.atEncStart) (his : onEngine .enc is = bs.map .encPush)
    (h : runCommands is s = .next t) (ht : t.fault = false) : EncoderHolds s.encRes bs t :=
  runCommands_tracks_pushes (P := EncoderHolds s.encRes) (fun hs h hexec => h.encPush hs hexec)
    (fun he hw h => h.of_writesOnly he hw) his h ht (encoderHolds_of_atEncStart hstart)

/-- Between two frame starts only the encoder's log has changed. -/
theorem eq_of_encoder_frame (hw : WritesOnly .enc s t) (hs : s.atEncStart) (ht : t.atEncStart) :
    t = { s with encRes := t.encRes } := by
  obtain ⟨-, hdec, hlut, hfault, hown⟩ := hw
  cases s; cases t
  simp_all [State.atEncStart]

end

/-- Settles O29: `EncoderHolds` at the end of the run. -/
theorem encoderTracksOpenFrame : Obligations.EncoderTracksOpenFrame := by
  intro is bs s t hstart his hrun ht
  have h := encoderHolds_of_run hstart his hrun ht
  exact ⟨h.take_drop.1, h.take_drop.2, h.log⟩

/-- Settles O30: `EncoderHolds` where `ENC_END` begins. -/
theorem encoderFrameIsEncode : Obligations.EncoderFrameIsEncode := by
  intro is bs s t hstart his hrun ht
  obtain ⟨u, hpushes, hend⟩ := runCommands_frame.1 hrun
  have hu := exec_begins_live hend ht
  exact (encoderHolds_of_run hstart his hpushes hu).encEnd hu hend

/-- Settles O31: no push and no END of the frame lacks room, and none writes outside the encoder. -/
theorem encoderFrameCompletes : Obligations.EncoderFrameCompletes := by
  intro bs s hs hstart hroom hdepth
  obtain ⟨u, hpushes, hwu, hu⟩ := runCommands_pushes_complete (push := .encPush) (bs := bs) (s := s)
    (P := fun pre u => WritesOnly .enc s u ∧ EncoderHolds s.encRes pre u)
    (fun {pre b post v} hbs ⟨hw, h⟩ => by
      have hv : v.fault = false := hw.faults.1.trans hs
      obtain ⟨t, hexec⟩ := h.exists_encPush hv (by rw [hbs, hw.own.2.1]; exact hroom)
      exact ⟨t, hexec, hw.trans (execEncPush_writesOnly hv hexec), h.encPush hv hexec⟩)
    ⟨.refl .enc s, encoderHolds_of_atEncStart hstart⟩
  have hlive : u.fault = false := hwu.faults.1.trans hs
  have hdepth' : withinCap u.caps.logDepth (u.unread .enc + 1) = true := by
    obtain ⟨hreads, hcaps, -⟩ := hwu.own
    simpa only [State.unread, State.logLength, hreads, hcaps, hu.log] using hdepth
  obtain ⟨t, hend⟩ := hu.exists_encEnd hlive (by rw [hwu.own.2.1]; exact hroom) hdepth'
  obtain ⟨hres, hlast⟩ := hu.encEnd hlive hend
  rw [encodeFrameCommands, runCommands_frame.2 ⟨u, hpushes, hend⟩, ← hres]
  exact congrArg _ (eq_of_encoder_frame (hwu.trans (execEncEnd_writesOnly hlive hend)) hstart hlast)

/-! ### The decoder's frame (R133) -/

/-- The decoder after the pushes of `cs` with an invalid character among them: the first one is latched. -/
structure FailedHolds (cs : List Byte) (s : State) : Prop where
  failed : s.decFailed = true
  invalid : s.decErrChar ∉ d2cRom
  split : ∃ (ds : List Digit) (after : List Byte), symbolPositions cs = ds.map d2c ++ s.decErrChar :: after

/-- The decoder after the pushes of `cs`, all symbols or whitespace: the bytes of whole groups in the buffer, the
other digits in the accumulator. -/
structure OpenHolds (cs : List Byte) (s : State) : Prop where
  live : s.decFailed = false
  split : ∃ groups : List Digit, groups.length % 5 = 0 ∧ symbolPositions cs = (groups ++ s.decAcc).map d2c ∧
    s.decOut = decodeDigits groups
  acc : s.decAcc.length ≤ 4

/-- The decoder after the pushes of `cs`, with the log as it was. -/
def DecoderHolds (res : List DecResult) (cs : List Byte) (s : State) : Prop :=
  s.decRes = res ∧ (FailedHolds cs s ∨ OpenHolds cs s)

/-- Whitespace takes no symbol position, and any other character takes one. -/
theorem symbolPositions_append_singleton (cs : List Byte) (c : Byte) :
    symbolPositions (cs ++ [c]) = if isWS c = true then symbolPositions cs else symbolPositions cs ++ [c] := by
  rw [symbolPositions_append]
  cases hw : isWS c <;> simp [symbolPositions, hw]

/-- A frame buffers at least the bytes of the whole groups among its first symbols. -/
theorem le_bufferedBytes {cs rest : List Byte} {ds : List Digit} (h : symbolPositions cs = ds.map d2c ++ rest) :
    4 * (ds.length / 5) ≤ bufferedBytes cs := by
  have hprefix : ds.length ≤ ((symbolPositions cs).takeWhile isSymbol).length := by
    rw [h, List.takeWhile_append_of_pos (by simp [isSymbol, c2d_d2c]), List.length_append, List.length_map]
    omega
  simp only [bufferedBytes]
  omega

/-- A frame of symbols buffers all its bytes. -/
theorem bufferedBytes_of_symbols {cs : List Byte} {ds : List Digit} (h : symbolPositions cs = ds.map d2c) :
    bufferedBytes cs = (decodeDigits ds).length := by
  have hall : (ds.map d2c).takeWhile isSymbol = ds.map d2c :=
    List.takeWhile_eq_self_iff.2 (by simp [isSymbol, c2d_d2c])
  simp [bufferedBytes, h, hall, decodeDigits_length]

section
variable {res : List DecResult} {cs : List Byte} {c : Byte} {s t : State}

theorem decoderHolds_of_atDecStart (h : s.atDecStart) : DecoderHolds s.decRes [] s := by
  obtain ⟨hacc, hout, hf⟩ := h
  exact ⟨rfl, .inr ⟨hf, ⟨[], rfl, by simp [hacc, symbolPositions], hout⟩, by simp [hacc]⟩⟩

theorem FailedHolds.decPush (h : FailedHolds cs s) : FailedHolds (cs ++ [c]) s := by
  obtain ⟨ds, after, hsplit⟩ := h.split
  refine ⟨h.failed, h.invalid, ds, after ++ symbolPositions [c], ?_⟩
  rw [symbolPositions_append, hsplit, List.append_assoc]
  rfl

theorem DecoderHolds.decPush (h : DecoderHolds res cs s) (hs : s.fault = false)
    (hexec : exec (.decPush c) s = .next t) : DecoderHolds res (cs ++ [c]) t := by
  obtain ⟨hlog, hfailed | ⟨hf, ⟨groups, hgroups, hsymbols, hout⟩, hacc⟩⟩ := h
  · have hsame : exec (.decPush c) s = .next s := exec_decPush_of_ignored hs (.inl hfailed.failed)
    cases hexec.symm.trans hsame
    exact ⟨hlog, .inl hfailed.decPush⟩
  have hnext := symbolPositions_append_singleton cs c
  rcases (execDecPush_eq_next hs).1 hexec with ⟨hskip, rfl⟩ | ⟨-, hw, hpush⟩
  · rw [if_pos (hskip.resolve_left (by simp [hf]))] at hnext
    exact ⟨hlog, .inr ⟨hf, ⟨groups, hgroups, hnext.trans hsymbols, hout⟩, hacc⟩⟩
  rw [if_neg (by simp [hw]), hsymbols] at hnext
  rcases hpush with ⟨hc, rfl⟩ | ⟨d, hd, hpush⟩
  · exact ⟨hlog, .inl ⟨rfl, c2d_isNone.1 (by simp [hc]), _, [], hnext⟩⟩
  rw [← d2c_of_c2d hd] at hnext ⊢
  rcases hpush with ⟨hopen, rfl⟩ | ⟨d0, d1, d2, d3, hfull, -, rfl⟩
  · exact ⟨hlog, .inr ⟨hf, ⟨groups, hgroups, by rw [hnext]; simp, hout⟩, by simp; omega⟩⟩
  · refine ⟨hlog, .inr ⟨hf, ⟨groups ++ [d0, d1, d2, d3, d], by simp; omega, by rw [hnext, hfull]; simp, ?_⟩, by simp⟩⟩
    rw [decodeDigits_append hgroups, setDecoder_decOut, hout]
    simp [decodeDigits]

theorem DecoderHolds.of_writesOnly {e : LogName} (h : DecoderHolds res cs s) (he : e ≠ .dec)
    (hw : WritesOnly e s t) : DecoderHolds res cs t := by
  obtain ⟨hacc, hout, hfailed, hchar, hlog⟩ := hw.decoder he
  refine ⟨hlog.trans h.1, h.2.imp (fun hf => ?_) fun ho => ?_⟩
  · constructor <;> simp only [hfailed, hchar]
    exacts [hf.failed, hf.invalid, hf.split]
  · constructor <;> simp only [hacc, hout, hfailed]
    exacts [ho.live, ho.split, ho.acc]

/-- `Decode` of a frame without an invalid character, by the decoder's elements. -/
theorem OpenHolds.decodeFrame_eq (h : OpenHolds cs s) :
    decodeFrame cs = if s.decAcc.length = 1 then .unexpectedEof
      else .ok (s.decOut ++ if s.decAcc = [] then [] else decTail s.decAcc) := by
  obtain ⟨-, ⟨groups, hgroups, hsymbols, hout⟩, hacc⟩ := h
  have hmod : (groups ++ s.decAcc).length % 5 = s.decAcc.length := by rw [List.length_append]; omega
  rw [decodeFrame_of_symbols hsymbols, hmod, decodeDigits_append hgroups, decodeDigits_of_short hacc, hout]

/-- What `DEC_END` delivers is `Decode` of the characters pushed. -/
theorem DecoderHolds.result_eq (h : DecoderHolds res cs s) :
    (if s.decFailed = true then .invalidCharacter s.decErrChar
      else if s.decAcc.length = 1 then .unexpectedEof
      else .ok (if 2 ≤ s.decAcc.length then s.decOut ++ decTail s.decAcc else s.decOut)) = decodeFrame cs := by
  rcases h.2 with hf | ho
  · obtain ⟨ds, after, hsplit⟩ := hf.split
    rw [if_pos hf.failed, decodeFrame_of_first_invalid hf.invalid hsplit]
  · rw [if_neg (by simp [ho.live]), ho.decodeFrame_eq]
    congr 2
    rcases hacc : s.decAcc with _ | ⟨a, _ | ⟨b, l⟩⟩ <;> simp [decTail]

theorem DecoderHolds.decEnd (h : DecoderHolds res cs s) (hs : s.fault = false)
    (hexec : exec .decEnd s = .next t) :
    t.decRes = res ++ [decodeFrame cs] ∧ t.atDecStart ∧ t.decErrChar = 0x00 := by
  obtain ⟨r, hr, -, rfl⟩ := (execDecEnd_eq_next hs).1 hexec
  have hresult : decodeFrame cs = r := by
    rw [← h.result_eq]
    rcases hr with ⟨hf, rfl⟩ | ⟨hf, h1, rfl⟩ | ⟨hf, hempty, rfl⟩ | ⟨hf, htail, rfl, -⟩
    · rw [if_pos hf]
    · rw [if_neg (by simp [hf]), if_pos h1]
    · simp [hf, hempty]
    · rw [if_neg (by simp [hf]), if_neg (by omega), if_pos htail]
  exact ⟨by rw [hresult, ← h.1]; rfl, ⟨rfl, rfl, rfl⟩, rfl⟩

/-- `DEC_PUSH` goes through when there is room for the group it may fill. -/
theorem exists_exec_decPush (hs : s.fault = false)
    (hroom : s.decFailed = false → ∀ d, c2d c = some d → s.decAcc.length = 4 →
      withinCap s.caps.decFrameCap (s.decOut.length + 4) = true) : ∃ t, exec (.decPush c) s = .next t := by
  by_cases hskip : s.decFailed = true ∨ isWS c = true
  · exact ⟨_, exec_decPush_of_ignored hs hskip⟩
  rw [not_or, Bool.not_eq_true, Bool.not_eq_true] at hskip
  obtain ⟨hf, hw⟩ := hskip
  cases hd : c2d c with
  | none => exact ⟨_, exec_decPush_of_invalid hs hf hw hd⟩
  | some d =>
    by_cases hacc : s.decAcc.length = 4
    · obtain ⟨d0, d1, d2, d3, hfull⟩ := List.length_eq_four.1 hacc
      exact ⟨_, exec_decPush_of_full hs hf hd hfull (hroom hf d hd hacc)⟩
    · exact ⟨_, execDecPush_partial hs hf hw hd hacc⟩

/-- A push has room when the bytes the whole frame buffers have. -/
theorem DecoderHolds.exists_decPush {post : List Byte} (h : DecoderHolds res cs s) (hs : s.fault = false)
    (hroom : withinCap s.caps.decFrameCap (bufferedBytes (cs ++ c :: post)) = true) :
    ∃ t, exec (.decPush c) s = .next t := by
  refine exists_exec_decPush hs fun hf d hd hacc => withinCap_mono hroom ?_
  obtain ⟨-, ⟨groups, hgroups, hsymbols, hout⟩, -⟩ := h.2.resolve_left fun h => by simp [h.failed] at hf
  have hframe : symbolPositions (cs ++ c :: post) = (groups ++ s.decAcc ++ [d]).map d2c ++ symbolPositions post := by
    rw [List.append_cons, symbolPositions_append, symbolPositions_append_singleton, if_neg (by simp [isWS_of_c2d hd]),
      hsymbols, List.map_append (l₂ := [d]), List.map_singleton, d2c_of_c2d hd]
  have hbytes := le_bufferedBytes hframe
  rw [hout, decodeDigits_length]
  simp only [List.length_append, List.length_singleton] at hbytes
  omega

theorem DecoderHolds.exists_decEnd (h : DecoderHolds res cs s) (hs : s.fault = false)
    (hroom : withinCap s.caps.decFrameCap (bufferedBytes cs) = true)
    (hlog : withinCap s.caps.logDepth (s.unread .dec + 1) = true) : ∃ t, exec .decEnd s = .next t := by
  refine ⟨_, exec_decEnd hs rfl h.result_eq (fun hf htail => ?_) hlog⟩
  obtain ⟨-, ⟨groups, hgroups, hsymbols, hout⟩, hacc⟩ := h.2.resolve_left fun h => by simp [h.failed] at hf
  have hne : s.decAcc ≠ [] := List.ne_nil_of_length_pos (by omega)
  rw [bufferedBytes_of_symbols hsymbols, decodeDigits_append hgroups, decodeDigits_of_short hacc, if_neg hne,
    ← hout] at hroom
  rwa [if_pos htail]

/-- The decoder's elements at the end of a run of its pushes among other commands. -/
theorem decoderHolds_of_run {is : List Instr} (hstart : s.atDecStart) (his : onEngine .dec is = cs.map .decPush)
    (h : runCommands is s = .next t) (ht : t.fault = false) : DecoderHolds s.decRes cs t :=
  runCommands_tracks_pushes (P := DecoderHolds s.decRes) (fun hs h hexec => h.decPush hs hexec)
    (fun he hw h => h.of_writesOnly he hw) his h ht (decoderHolds_of_atDecStart hstart)

/-- Between two frame starts only the decoder's log has changed. -/
theorem eq_of_decoder_frame (hw : WritesOnly .dec s t) (hs : s.atDecStart) (ht : t.atDecStart)
    (hchar : t.decErrChar = s.decErrChar) : t = { s with decRes := t.decRes } := by
  obtain ⟨henc, -, hlut, hfault, hown⟩ := hw
  cases s; cases t
  simp_all [State.atDecStart]

end

/-- Settles O40: `DecoderHolds` where `DEC_END` begins. -/
theorem decoderFrameIsDecode : Obligations.DecoderFrameIsDecode := by
  intro is cs s t hstart his hrun ht
  obtain ⟨u, hpushes, hend⟩ := runCommands_frame.1 hrun
  have hu := exec_begins_live hend ht
  exact (decoderHolds_of_run hstart his hpushes hu).decEnd hu hend

/-- Settles O41: no push and no END of the frame lacks room, and none writes outside the decoder. -/
theorem decoderFrameCompletes : Obligations.DecoderFrameCompletes := by
  intro cs s hs hstart hchar hroom hdepth
  obtain ⟨u, hpushes, hwu, hu⟩ := runCommands_pushes_complete (push := .decPush) (bs := cs) (s := s)
    (P := fun pre u => WritesOnly .dec s u ∧ DecoderHolds s.decRes pre u)
    (fun {pre c post v} hcs ⟨hw, h⟩ => by
      have hv : v.fault = false := hw.faults.1.trans hs
      obtain ⟨t, hexec⟩ := h.exists_decPush hv (by rw [hcs, hw.own.2.1]; exact hroom)
      exact ⟨t, hexec, hw.trans (execDecPush_writesOnly hv hexec), h.decPush hv hexec⟩)
    ⟨.refl .dec s, decoderHolds_of_atDecStart hstart⟩
  have hlive : u.fault = false := hwu.faults.1.trans hs
  have hdepth' : withinCap u.caps.logDepth (u.unread .dec + 1) = true := by
    obtain ⟨hreads, hcaps, -⟩ := hwu.own
    simpa only [State.unread, State.logLength, hreads, hcaps, hu.1] using hdepth
  obtain ⟨t, hend⟩ := hu.exists_decEnd hlive (by rw [hwu.own.2.1]; exact hroom) hdepth'
  obtain ⟨hres, hlast, hclear⟩ := hu.decEnd hlive hend
  rw [decodeFrameCommands, runCommands_frame.2 ⟨u, hpushes, hend⟩, ← hres]
  exact congrArg _ (eq_of_decoder_frame (hwu.trans (execDecEnd_writesOnly hlive hend)) hstart hlast
    (hclear.trans hchar.symm))

/-! ### Both engines (R129) -/

/-- An encoded frame has no whitespace (R106). -/
theorem symbolPositions_encodeFrame (bs : List Byte) : symbolPositions (encodeFrame bs) = encodeFrame bs := by
  refine List.filter_eq_self.2 fun c hc => ?_
  obtain ⟨d, rfl⟩ := mem_encodeFrame hc
  simp [isWS_d2c]

theorem bufferedBytes_encodeFrame (bs : List Byte) : bufferedBytes (encodeFrame bs) = bs.length := by
  obtain ⟨ds, hds, -, hdec⟩ := encodeFrame_digits bs
  rw [bufferedBytes_of_symbols ((symbolPositions_encodeFrame bs).trans hds), hdec]

/-- Settles O42: the encoder's frame completes, and then the decoder's frame of its code, which decodes to the
bytes. -/
theorem enginesRoundTripFrames : Obligations.EnginesRoundTripFrames := by
  intro bs s hs henc hdec hchar hencRoom hdecRoom hencDepth hdecDepth
  have hdecode : decodeFrame (encodeFrame bs) = .ok bs := decodeInvertsEncode bs _ (symbolPositions_encodeFrame bs)
  rw [runCommands_append, encoderFrameCompletes bs s hs henc hencRoom hencDepth, andThen_next, ← hdecode]
  exact decoderFrameCompletes (encodeFrame bs) { s with encRes := s.encRes ++ [encodeFrame bs] } hs hdec hchar
    (by rw [bufferedBytes_encodeFrame]; exact hdecRoom) hdecDepth

end Sys2Proof.Machine
end

section
/-! Family other, the whole machine: engines that neither disturb nor see each other (R2, R32, R51), capacities that
refuse and change nothing else (R57), and runs of the machine and of words (R50, R178). -/

namespace Sys2Proof.Machine

/-! ### The engines apart (R2, R32, R51) -/

theorem agreeOn_symm {e : LogName} {s t : State} (h : agreeOn e s t) : agreeOn e t s := by
  cases e <;> simp_all [agreeOn]

theorem agreeOn_trans {e : LogName} {s t u : State} (h : agreeOn e s t) (h' : agreeOn e t u) : agreeOn e s u := by
  cases e <;> simp_all [agreeOn]

/-- What another engine writes leaves the two states in agreement. -/
theorem agreeOn_of_writesOnly {e e' : LogName} {s t : State} (hw : WritesOnly e' s t) (he : e' ≠ e) :
    agreeOn e t s := by
  obtain ⟨hreads, hcaps, -⟩ := hw.own
  refine ⟨hw.faults.1, hcaps, by rw [hreads], ?_⟩
  cases e with
  | enc => exact hw.encoder he
  | dec => exact hw.decoder he
  | lut => exact hw.mapper he

theorem unread_of_agreeOn {e : LogName} {s t : State} (h : agreeOn e s t) : s.unread e = t.unread e := by
  obtain ⟨-, -, hreads, helements⟩ := h
  cases e <;> simp_all [State.unread, State.logLength]

/-- What is left of two states that agree on every engine is the fault record and the host's script. -/
theorem eq_of_agreeOn {s t : State} (h : ∀ e, agreeOn e s t) (hcause : s.faultCause = t.faultCause)
    (hword : s.faultWord = t.faultWord) (hpending : s.pending = t.pending) : s = t := by
  obtain ⟨hfault, hcaps, hencReads, henc⟩ := h .enc
  obtain ⟨-, -, hdecReads, hdec⟩ := h .dec
  obtain ⟨-, -, hlutReads, hlut⟩ := h .lut
  have hreads : s.reads = t.reads := by
    cases hs : s.reads
    cases ht : t.reads
    simp_all [ReadCounts.count]
  cases s; cases t
  simp_all

theorem agreeOn_pushLutRes {s t : State} (h : agreeOn .lut s t) (r : LutResult) :
    agreeOn .lut (s.pushLutRes r) (t.pushLutRes r) := by
  obtain ⟨hfault, hcaps, hreads, hres⟩ := h
  exact ⟨hfault, hcaps, hreads, congrArg (· ++ [r]) hres⟩

/-! Each command's condition and effect read its own engine's elements only. -/

section
variable {s s' t : State} (hs : s.fault = false)
include hs

theorem execEncPush_of_agreeOn {b : Byte} (h : agreeOn .enc s s') (hexec : execEncPush b s = .next t) :
    ∃ t', execEncPush b s' = .next t' ∧ agreeOn .enc t t' := by
  obtain ⟨hfault, hcaps, hreads, hacc, hout, hres⟩ := h
  have hs' : s'.fault = false := hfault ▸ hs
  rw [execEncPush_eq_next hs, hacc, hout, hcaps] at hexec
  rcases hexec with ⟨hopen, rfl⟩ | ⟨b0, b1, b2, hfull, hroom, rfl⟩
  · exact ⟨_, (execEncPush_eq_next hs').2 (.inl ⟨hopen, rfl⟩), hfault, hcaps, hreads, rfl, rfl, hres⟩
  · exact ⟨_, (execEncPush_eq_next hs').2 (.inr ⟨b0, b1, b2, hfull, hroom, rfl⟩),
      hfault, hcaps, hreads, rfl, rfl, hres⟩

theorem execEncEnd_of_agreeOn (h : agreeOn .enc s s') (hexec : execEncEnd s = .next t) :
    ∃ t', execEncEnd s' = .next t' ∧ agreeOn .enc t t' := by
  have hunread := unread_of_agreeOn h
  obtain ⟨hfault, hcaps, hreads, hacc, hout, hres⟩ := h
  have hs' : s'.fault = false := hfault ▸ hs
  rw [execEncEnd_eq_next hs, hacc, hout, hcaps, hunread] at hexec
  obtain ⟨out, hframe, hroom, rfl⟩ := hexec
  exact ⟨_, (execEncEnd_eq_next hs').2 ⟨out, hframe, hroom, rfl⟩, hfault, hcaps, hreads, rfl, rfl,
    congrArg (· ++ [out]) hres⟩

theorem execDecPush_of_agreeOn {c : Byte} (h : agreeOn .dec s s') (hexec : execDecPush c s = .next t) :
    ∃ t', execDecPush c s' = .next t' ∧ agreeOn .dec t t' := by
  obtain ⟨hfault, hcaps, hreads, hacc, hout, hfailed, hchar, hres⟩ := h
  have hs' : s'.fault = false := hfault ▸ hs
  rw [execDecPush_eq_next hs, hacc, hout, hfailed, hcaps] at hexec
  rcases hexec with ⟨hskip, rfl⟩ | ⟨hf, hw, ⟨hc, rfl⟩ | ⟨d, hd, ⟨hopen, rfl⟩ | ⟨d0, d1, d2, d3, hfull, hroom, rfl⟩⟩⟩
  · exact ⟨_, (execDecPush_eq_next hs').2 (.inl ⟨hskip, rfl⟩), hfault, hcaps, hreads, hacc, hout, hfailed, hchar, hres⟩
  · exact ⟨_, (execDecPush_eq_next hs').2 (.inr ⟨hf, hw, .inl ⟨hc, rfl⟩⟩), hfault, hcaps, hreads,
      rfl, rfl, rfl, rfl, hres⟩
  · exact ⟨_, (execDecPush_eq_next hs').2 (.inr ⟨hf, hw, .inr ⟨d, hd, .inl ⟨hopen, rfl⟩⟩⟩), hfault, hcaps, hreads,
      rfl, rfl, hfailed, hchar, hres⟩
  · exact ⟨_, (execDecPush_eq_next hs').2 (.inr ⟨hf, hw, .inr ⟨d, hd, .inr ⟨d0, d1, d2, d3, hfull, hroom, rfl⟩⟩⟩),
      hfault, hcaps, hreads, rfl, rfl, hfailed, hchar, hres⟩

theorem execDecEnd_of_agreeOn (h : agreeOn .dec s s') (hexec : execDecEnd s = .next t) :
    ∃ t', execDecEnd s' = .next t' ∧ agreeOn .dec t t' := by
  have hunread := unread_of_agreeOn h
  obtain ⟨hfault, hcaps, hreads, hacc, hout, hfailed, hchar, hres⟩ := h
  have hs' : s'.fault = false := hfault ▸ hs
  rw [execDecEnd_eq_next hs, hacc, hout, hfailed, hchar, hcaps, hunread] at hexec
  obtain ⟨r, hresult, hroom, rfl⟩ := hexec
  exact ⟨_, (execDecEnd_eq_next hs').2 ⟨r, hresult, hroom, rfl⟩, hfault, hcaps, hreads, rfl, rfl, rfl, rfl,
    congrArg (· ++ [r]) hres⟩

theorem execMapD2C_of_agreeOn {d : Byte} (h : agreeOn .lut s s') (hexec : execMapD2C d s = .next t) :
    ∃ t', execMapD2C d s' = .next t' ∧ agreeOn .lut t t' := by
  have hunread := unread_of_agreeOn h
  have hpush := agreeOn_pushLutRes h
  obtain ⟨hfault, hcaps, hreads, hres⟩ := h
  have hs' : s'.fault = false := hfault ▸ hs
  rw [execMapD2C_eq_next hs, hcaps, hunread] at hexec
  rcases hexec with ⟨hd, hroom, rfl⟩ | ⟨hd, rfl⟩
  · exact ⟨_, (execMapD2C_eq_next hs').2 (.inl ⟨hd, hroom, rfl⟩), hpush _⟩
  · exact ⟨_, (execMapD2C_eq_next hs').2 (.inr ⟨hd, rfl⟩), rfl, hcaps, hreads, hres⟩

theorem execMapC2D_of_agreeOn {c : Byte} (h : agreeOn .lut s s') (hexec : execMapC2D c s = .next t) :
    ∃ t', execMapC2D c s' = .next t' ∧ agreeOn .lut t t' := by
  have hunread := unread_of_agreeOn h
  have hpush := agreeOn_pushLutRes h
  obtain ⟨hfault, hcaps, hreads, -⟩ := h
  have hs' : s'.fault = false := hfault ▸ hs
  rw [execMapC2D_eq_next hs, hcaps, hunread] at hexec
  obtain ⟨hroom, rfl⟩ := hexec
  exact ⟨_, (execMapC2D_eq_next hs').2 ⟨hroom, rfl⟩, hpush _⟩

theorem exec_of_agreeOn {i : Instr} (h : agreeOn (engineOf i) s s') (hexec : exec i s = .next t) :
    ∃ t', exec i s' = .next t' ∧ agreeOn (engineOf i) t t' := by
  cases i with
  | encPush b => exact execEncPush_of_agreeOn hs h hexec
  | encEnd => exact execEncEnd_of_agreeOn hs h hexec
  | decPush c => exact execDecPush_of_agreeOn hs h hexec
  | decEnd => exact execDecEnd_of_agreeOn hs h hexec
  | mapD2C d => exact execMapD2C_of_agreeOn hs h hexec
  | mapC2D c => exact execMapC2D_of_agreeOn hs h hexec

end

/-- Settles O44: a faulted block discards the command on both sides. -/
theorem engineLearnsNothingOfOthers : Obligations.EngineLearnsNothingOfOthers := by
  intro i s s' t h hexec
  cases hs : s.fault with
  | true =>
    rw [exec_faulted i hs] at hexec
    cases hexec
    exact ⟨s', exec_faulted i (h.1 ▸ hs), h⟩
  | false => exact exec_of_agreeOn hs h hexec

/-- Settles O43: each command finds its own engine as it was, so it does on either side of the other what it did, and
the two end states agree on every engine. -/
theorem enginesDoNotInterfere : Obligations.EnginesDoNotInterfere := by
  intro i j s t u hij hi hj hu
  have ht := exec_begins_live hj hu
  have hst := exec_writesOnly_of_live hi ht
  have htu := exec_writesOnly_of_live hj hu
  obtain ⟨t', hj', hut'⟩ := engineLearnsNothingOfOthers j t s u (agreeOn_of_writesOnly hst hij) hj
  have hst' := exec_writesOnly_of_live hj' (hut'.1.symm.trans hu)
  obtain ⟨u', hi', htu'⟩ := engineLearnsNothingOfOthers i s t' t
    (agreeOn_symm (agreeOn_of_writesOnly hst' hij.symm)) hi
  have ht'u' := exec_writesOnly_of_live hi' (htu'.1.symm.trans ht)
  have hagree : ∀ e, agreeOn e u u' := fun e => by
    by_cases hei : engineOf i = e
    · subst hei
      exact agreeOn_trans (agreeOn_of_writesOnly htu hij.symm) htu'
    by_cases hej : engineOf j = e
    · subst hej
      exact agreeOn_trans hut' (agreeOn_symm (agreeOn_of_writesOnly ht'u' hij))
    · have hsu := agreeOn_trans (agreeOn_of_writesOnly htu hej) (agreeOn_of_writesOnly hst hei)
      exact agreeOn_trans hsu
        (agreeOn_symm (agreeOn_trans (agreeOn_of_writesOnly ht'u' hei) (agreeOn_of_writesOnly hst' hej)))
  have heq : u = u' := eq_of_agreeOn hagree (by simp [hst.faults, htu.faults, hst'.faults, ht'u'.faults])
    (by simp [hst.faults, htu.faults, hst'.faults, ht'u'.faults]) (by simp [hst.own, htu.own, hst'.own, ht'u'.own])
  exact ⟨t', hj', heq ▸ hi'⟩

end Sys2Proof.Machine
end

section
/-! Family other, capacities and runs: a capacity refuses and changes nothing else (R57), stepping through a host's
commands is the run of their words (R50), and which runs succeed (R178). -/

namespace Sys2Proof.Machine

/-! ### Refusals (R57) -/

theorem growEncOut_refused {syms : List Byte} {s : State}
    (h : withinCap s.caps.encFrameCap (s.encOut.length + syms.length) = false) :
    growEncOut syms s = .refused .encFrameCapExceeded := by simp [growEncOut, h]

theorem growDecOut_refused {bs : List Byte} {s : State}
    (h : withinCap s.caps.decFrameCap (s.decOut.length + bs.length) = false) :
    growDecOut bs s = .refused .decFrameCapExceeded := by simp [growDecOut, h]

theorem ifLogRoom_refused {l : LogName} {s s' : State} (h : withinCap s.caps.logDepth (s.unread l + 1) = false) :
    ifLogRoom l s s' = .refused (.logDepthExceeded l) := by simp [ifLogRoom, h]

theorem deliverDec_refused {r : DecResult} {s : State} (h : withinCap s.caps.logDepth (s.unread .dec + 1) = false) :
    deliverDec r s = .refused (.logDepthExceeded .dec) := by
  rw [deliverDec, appendDecRes, ifLogRoom_refused h, andThen_refused]

section
variable {s : State} (hs : s.fault = false)
include hs

theorem exec_encPush_refused {b b0 b1 b2 : Byte} (hfull : s.encAcc = [b0, b1, b2])
    (h : withinCap s.caps.encFrameCap (s.encOut.length + 5) = false) :
    exec (.encPush b) s = .refused .encFrameCapExceeded :=
  (execEncPush_full hs hfull).trans (growEncOut_refused h)

theorem exec_encEnd_refused_frame (hacc : 0 < s.encAcc.length)
    (h : withinCap s.caps.encFrameCap (s.encOut.length + (encTail s.encAcc).length) = false) :
    exec .encEnd s = .refused .encFrameCapExceeded := by
  simp only [exec, execEncEnd, unlessFaulted_of_live hs, growEncTail, if_neg hacc.ne', growEncOut_refused h,
    andThen_refused]

theorem exec_encEnd_refused_log (hframe : 0 < s.encAcc.length →
      withinCap s.caps.encFrameCap (s.encOut.length + (encTail s.encAcc).length) = true)
    (h : withinCap s.caps.logDepth (s.unread .enc + 1) = false) :
    exec .encEnd s = .refused (.logDepthExceeded .enc) := by
  simp only [exec, execEncEnd, unlessFaulted_of_live hs, appendEncRes]
  rcases Nat.eq_zero_or_pos s.encAcc.length with hempty | hrest
  · rw [growEncTail_eq_next.2 (.inl ⟨List.length_eq_zero_iff.1 hempty, rfl⟩), andThen_next, ifLogRoom_refused h,
      andThen_refused]
  · rw [growEncTail_eq_next.2 (.inr ⟨List.ne_nil_of_length_pos hrest, hframe hrest, rfl⟩), andThen_next,
      ifLogRoom_refused (by simpa using h), andThen_refused]

theorem exec_decPush_refused {c : Byte} {d : Digit} (hd : c2d c = some d) (hf : s.decFailed = false)
    (hacc : s.decAcc.length = 4) (h : withinCap s.caps.decFrameCap (s.decOut.length + 4) = false) :
    exec (.decPush c) s = .refused .decFrameCapExceeded := by
  obtain ⟨d0, d1, d2, d3, hfull⟩ := List.length_eq_four.1 hacc
  exact (execDecPush_full hs hf (isWS_of_c2d hd) hd hfull).trans (growDecOut_refused h)

theorem exec_decEnd_refused_frame (hf : s.decFailed = false) (hacc : 2 ≤ s.decAcc.length)
    (h : withinCap s.caps.decFrameCap (s.decOut.length + (decTail s.decAcc).length) = false) :
    exec .decEnd s = .refused .decFrameCapExceeded := by
  have hlone : s.decAcc.length ≠ 1 := by omega
  simp only [exec, execDecEnd, unlessFaulted_of_live hs, hf, Bool.false_eq_true, if_false, if_neg hlone, growDecTail,
    if_pos hacc, growDecOut_refused h, andThen_refused]

theorem exec_decEnd_refused_log (hframe : s.decFailed = false → 2 ≤ s.decAcc.length →
      withinCap s.caps.decFrameCap (s.decOut.length + (decTail s.decAcc).length) = true)
    (h : withinCap s.caps.logDepth (s.unread .dec + 1) = false) :
    exec .decEnd s = .refused (.logDepthExceeded .dec) := by
  simp only [exec, execDecEnd, unlessFaulted_of_live hs]
  split_ifs with hf hlone
  · exact deliverDec_refused h
  · exact deliverDec_refused h
  · rcases Nat.lt_or_ge s.decAcc.length 2 with hempty | htail
    · rw [growDecTail_eq_next.2 (.inl ⟨hempty, rfl⟩), andThen_next, deliverDec_refused h]
    · rw [growDecTail_eq_next.2 (.inr ⟨htail, hframe (Bool.eq_false_iff.2 hf) htail, rfl⟩), andThen_next]
      exact deliverDec_refused (by simpa using h)

theorem exec_mapD2C_refused {d : Byte} (hd : d.toNat < 85)
    (h : withinCap s.caps.logDepth (s.unread .lut + 1) = false) :
    exec (.mapD2C d) s = .refused (.logDepthExceeded .lut) := by
  simp only [exec, execMapD2C, unlessFaulted_of_live hs, operandDigit, dif_pos hd, appendLutRes, ifLogRoom_refused h]

theorem exec_mapC2D_refused {c : Byte} (h : withinCap s.caps.logDepth (s.unread .lut + 1) = false) :
    exec (.mapC2D c) s = .refused (.logDepthExceeded .lut) := by
  simp only [exec, execMapC2D, unlessFaulted_of_live hs, appendLutRes, ifLogRoom_refused h]
  cases c2d c <;> rfl

end

/-- Settles O45: the refusal of each command, by the operation that raises it. -/
theorem capacityExcessIsRefused : Obligations.CapacityExcessIsRefused := fun _ hs =>
  ⟨fun _ _ _ _ => exec_encPush_refused hs, exec_encEnd_refused_frame hs, fun _ _ => exec_decPush_refused hs,
    exec_decEnd_refused_frame hs, fun _ => exec_mapD2C_refused hs, fun _ => exec_mapC2D_refused hs,
    exec_encEnd_refused_log hs, exec_decEnd_refused_log hs⟩

/-! ### The unbounded machine (R57) -/

theorem withinCap_unbounded {s : State} (h : s.caps = .unbounded) (n : Nat) :
    withinCap s.caps.encFrameCap n = true ∧ withinCap s.caps.decFrameCap n = true ∧
      withinCap s.caps.logDepth n = true := by
  rw [h]
  exact ⟨rfl, rfl, rfl⟩

theorem exec_unbounded {i : Instr} {s t : State} (h : exec i s = .next t) :
    exec i (s.withCaps .unbounded) = .next (t.withCaps .unbounded) := by
  cases hs : s.fault with
  | true =>
    rw [exec_faulted i hs] at h
    cases h
    exact exec_faulted i hs
  | false =>
    have hs' : (s.withCaps .unbounded).fault = false := hs
    cases i with
    | encPush b =>
      rcases (execEncPush_eq_next hs).1 h with ⟨hopen, rfl⟩ | ⟨b0, b1, b2, hfull, -, rfl⟩
      · exact (execEncPush_eq_next hs').2 (.inl ⟨hopen, rfl⟩)
      · exact (execEncPush_eq_next hs').2 (.inr ⟨b0, b1, b2, hfull, rfl, rfl⟩)
    | encEnd =>
      obtain ⟨out, hout, -, rfl⟩ := (execEncEnd_eq_next hs).1 h
      exact (execEncEnd_eq_next hs').2
        ⟨out, hout.imp id fun ⟨hrest, heq, _⟩ => ⟨hrest, heq, rfl⟩, rfl, rfl⟩
    | decPush c =>
      rcases (execDecPush_eq_next hs).1 h with
        ⟨hskip, rfl⟩ | ⟨hf, hw, ⟨hc, rfl⟩ | ⟨d, hd, ⟨hopen, rfl⟩ | ⟨d0, d1, d2, d3, hfull, -, rfl⟩⟩⟩
      · exact (execDecPush_eq_next hs').2 (.inl ⟨hskip, rfl⟩)
      · exact (execDecPush_eq_next hs').2 (.inr ⟨hf, hw, .inl ⟨hc, rfl⟩⟩)
      · exact (execDecPush_eq_next hs').2 (.inr ⟨hf, hw, .inr ⟨d, hd, .inl ⟨hopen, rfl⟩⟩⟩)
      · exact (execDecPush_eq_next hs').2 (.inr ⟨hf, hw, .inr ⟨d, hd, .inr ⟨d0, d1, d2, d3, hfull, rfl, rfl⟩⟩⟩)
    | decEnd =>
      obtain ⟨r, hr, -, rfl⟩ := (execDecEnd_eq_next hs).1 h
      exact (execDecEnd_eq_next hs').2 ⟨r, hr.imp id (.imp id (.imp id fun ⟨hf, htail, heq, _⟩ =>
        ⟨hf, htail, heq, rfl⟩)), rfl, rfl⟩
    | mapD2C d =>
      rcases (execMapD2C_eq_next hs).1 h with ⟨hd, -, rfl⟩ | ⟨hd, rfl⟩
      · exact (execMapD2C_eq_next hs').2 (.inl ⟨hd, rfl, rfl⟩)
      · exact (execMapD2C_eq_next hs').2 (.inr ⟨hd, rfl⟩)
    | mapC2D c =>
      obtain ⟨-, rfl⟩ := (execMapC2D_eq_next hs).1 h
      exact (execMapC2D_eq_next hs').2 ⟨rfl, rfl⟩

theorem exists_exec_unbounded (i : Instr) {s : State} (h : s.caps = .unbounded) : ∃ t, exec i s = .next t := by
  cases hs : s.fault with
  | true => exact ⟨s, exec_faulted i hs⟩
  | false =>
    obtain ⟨-, -, hlog⟩ := withinCap_unbounded h (s.unread (engineOf i) + 1)
    cases i with
    | encPush b => exact exists_exec_encPush hs fun _ => (withinCap_unbounded h _).1
    | encEnd => exact ⟨_, exec_encEnd hs rfl (fun _ => (withinCap_unbounded h _).1) hlog⟩
    | decPush c => exact exists_exec_decPush hs fun _ _ _ _ => (withinCap_unbounded h _).2.1
    | decEnd => exact ⟨_, exec_decEnd hs rfl rfl (fun _ _ => (withinCap_unbounded h _).2.1) hlog⟩
    | mapD2C d =>
      rcases Nat.lt_or_ge d.toNat 85 with hd | hd
      · exact ⟨_, exec_mapD2C_of_lt hs hd hlog⟩
      · exact ⟨_, exec_mapD2C_of_ge hs hd⟩
    | mapC2D c => exact ⟨_, exec_mapC2D hs hlog⟩

theorem execute_unbounded {w : CmdWord} {s t : State} (h : execute w s = .next t) :
    execute w (s.withCaps .unbounded) = .next (t.withCaps .unbounded) := by
  rcases execute_eq_next.1 h with ⟨hs, rfl⟩ | ⟨hs, ⟨e, hdec, rfl⟩ | ⟨i, hdec, hexec⟩⟩
  · exact execute_of_fault (s := s.withCaps .unbounded) hs w
  · exact execute_of_decode_error (s := s.withCaps .unbounded) hs hdec
  · rw [execute_of_decode hdec]
    exact exec_unbounded hexec

theorem exists_execute_unbounded (w : CmdWord) {s : State} (h : s.caps = .unbounded) :
    ∃ t, execute w s = .next t := by
  cases hdec : decode w with
  | ok i =>
    rw [execute_of_decode hdec]
    exact exists_exec_unbounded i h
  | error e =>
    cases hs : s.fault with
    | true => exact ⟨s, execute_of_fault hs w⟩
    | false => exact ⟨_, execute_of_decode_error hs hdec⟩

theorem takeOldest_withCaps (l : LogName) (c : Capacities) (s : State) :
    (s.withCaps c).takeOldest l = (s.takeOldest l).withCaps c := by
  rcases Nat.eq_zero_or_pos (s.unread l) with h | h
  · rw [takeOldest_of_none h, takeOldest_of_none (by simpa using h)]
  · rw [takeOldest_of_unread h, takeOldest_of_unread (by simpa using h)]
    rfl

theorem perform_unbounded {a : HostAction} {s t : State} (h : perform a s = .next t) :
    perform a (s.withCaps .unbounded) = .next (t.withCaps .unbounded) := by
  cases a with
  | command w => exact execute_unbounded h
  | readStatus => cases h; rfl
  | readFaultInfo => cases h; rfl
  | readLog l => cases h; exact congrArg _ (takeOldest_withCaps l _ s)
  | assertReset => cases h; rfl

/-- Settles O46: every condition on a capacity is dropped, and without them nothing is refused. -/
theorem capacitiesChangeNoResult : Obligations.CapacitiesChangeNoResult := by
  refine ⟨fun s t h => ?_, fun s h => ?_⟩
  · rcases step_eq_next.1 h with ⟨hp, rfl⟩ | ⟨a, rest, hp, hperf⟩
    · exact step_eq_next.2 (.inl ⟨hp, rfl⟩)
    · exact step_eq_next.2 (.inr ⟨a, rest, hp, perform_unbounded hperf⟩)
  · rcases hp : s.pending with _ | ⟨a, rest⟩
    · exact ⟨s, step_eq_next.2 (.inl ⟨hp, rfl⟩)⟩
    · obtain ⟨t, ht⟩ : ∃ t, perform a (s.setPending rest) = .next t := by
        cases a with
        | command w => exact exists_execute_unbounded w h
        | _ => exact ⟨_, rfl⟩
      exact ⟨t, step_eq_next.2 (.inr ⟨a, rest, hp, ht⟩)⟩

/-! ### The host's script (R50) -/

/-- `k` neither reads nor writes what the host does next. -/
def KeepsScript (k : State → Result) : Prop :=
  ∀ as s, k (s.setPending as) = andThen (k s) fun t => .next (t.setPending as)

namespace KeepsScript

variable {k l : State → Result}

theorem next {g : State → State} (hg : ∀ as s, g (s.setPending as) = (g s).setPending as) :
    KeepsScript fun s => .next (g s) := fun as s => congrArg _ (hg as s)

theorem refused (e : Refusal) : KeepsScript fun _ => .refused e := fun _ _ => rfl

theorem andThen (hk : KeepsScript k) (hl : KeepsScript l) : KeepsScript fun s => andThen (k s) l := fun as s => by
  simp only [hk as s, andThen_assoc, andThen_next, hl as]

theorem ite {c : State → Prop} [DecidablePred c] (hc : ∀ as s, c (s.setPending as) ↔ c s) (hk : KeepsScript k)
    (hl : KeepsScript l) : KeepsScript fun s => if c s then k s else l s := fun as s => by
  simp only [hc as s]
  split_ifs
  · exact hk as s
  · exact hl as s

theorem unlessFaulted (hk : KeepsScript k) : KeepsScript fun s => unlessFaulted s k :=
  .ite (fun _ _ => Iff.rfl) (.next fun _ _ => rfl) hk

theorem growEncOut {syms : State → List Byte} (h : ∀ as s, syms (s.setPending as) = syms s) :
    KeepsScript fun s => growEncOut (syms s) s :=
  .ite (fun as s => by simp [h]) (.next fun as s => by rw [h]; rfl) (.refused _)

theorem growDecOut {bs : State → List Byte} (h : ∀ as s, bs (s.setPending as) = bs s) :
    KeepsScript fun s => growDecOut (bs s) s :=
  .ite (fun as s => by simp [h]) (.next fun as s => by rw [h]; rfl) (.refused _)

theorem ifLogRoom {l : LogName} {g : State → State} (hg : ∀ as s, g (s.setPending as) = (g s).setPending as) :
    KeepsScript fun s => ifLogRoom l s (g s) :=
  .ite (fun as s => by simp) (.next hg) (.refused _)

theorem growEncTail : KeepsScript growEncTail :=
  .ite (fun _ _ => Iff.rfl) (.next fun _ _ => rfl) (.growEncOut fun _ _ => rfl)

theorem growDecTail : KeepsScript growDecTail :=
  .ite (fun _ _ => Iff.rfl) (.growDecOut fun _ _ => rfl) (.next fun _ _ => rfl)

theorem deliverDec {r : State → DecResult} (hr : ∀ as s, r (s.setPending as) = r s) :
    KeepsScript fun s => deliverDec (r s) s :=
  .andThen (.ifLogRoom fun as s => by rw [hr]; rfl) (.next fun _ _ => rfl)

/-- Where a faulted block discards `k`, only a live one is left to show. -/
theorem of_live (hfault : ∀ s, s.fault = true → k s = .next s)
    (hlive : ∀ as s, s.fault = false → k (s.setPending as) = Machine.andThen (k s) fun t => .next (t.setPending as)) :
    KeepsScript k := fun as s => by
  cases hs : s.fault with
  | true => rw [hfault s hs, hfault (s.setPending as) hs, andThen_next]
  | false => exact hlive as s hs

theorem encPush (b : Byte) : KeepsScript (exec (.encPush b)) :=
  .of_live (fun _ hs => exec_faulted _ hs) fun as s hs => by
    by_cases hacc : s.encAcc.length = 3
    · obtain ⟨b0, b1, b2, hfull⟩ := List.length_eq_three.1 hacc
      rw [exec, exec, execEncPush_full hs hfull, execEncPush_full (s := s.setPending as) hs hfull]
      exact KeepsScript.growEncOut (syms := fun _ => encBlock b0 b1 b2 b) (fun _ _ => rfl) as (s.setEncoder [] s.encOut)
    · rw [exec, exec, execEncPush_partial hs hacc, execEncPush_partial (s := s.setPending as) hs hacc]
      rfl

theorem decPush (c : Byte) : KeepsScript (exec (.decPush c)) :=
  .of_live (fun _ hs => exec_faulted _ hs) fun as s hs => by
    by_cases hskip : s.decFailed = true ∨ isWS c = true
    · rw [exec_decPush_of_ignored hs hskip, exec_decPush_of_ignored (s := s.setPending as) hs hskip]
      rfl
    rw [not_or, Bool.not_eq_true, Bool.not_eq_true] at hskip
    obtain ⟨hf, hw⟩ := hskip
    cases hd : c2d c with
    | none =>
      rw [exec_decPush_of_invalid hs hf hw hd, exec_decPush_of_invalid (s := s.setPending as) hs hf hw hd]
      rfl
    | some d =>
      by_cases hacc : s.decAcc.length = 4
      · obtain ⟨d0, d1, d2, d3, hfull⟩ := List.length_eq_four.1 hacc
        rw [exec, exec, execDecPush_full hs hf hw hd hfull, execDecPush_full (s := s.setPending as) hs hf hw hd hfull]
        exact KeepsScript.growDecOut (bs := fun _ => decBlock d0 d1 d2 d3 d) (fun _ _ => rfl) as
          (s.setDecoder [] s.decOut)
      · rw [exec, exec, execDecPush_partial hs hf hw hd hacc,
          execDecPush_partial (s := s.setPending as) hs hf hw hd hacc]
        rfl

/-- Every command, by the operations it is made of. -/
theorem exec (i : Instr) : KeepsScript (exec i) := by
  cases i with
  | encPush b => exact .encPush b
  | encEnd => exact .unlessFaulted (.andThen .growEncTail (.andThen (.ifLogRoom fun _ _ => rfl) (.next fun _ _ => rfl)))
  | decPush c => exact .decPush c
  | decEnd =>
    exact .unlessFaulted (.ite (fun _ _ => Iff.rfl) (.deliverDec fun _ _ => rfl)
      (.ite (fun _ _ => Iff.rfl) (.deliverDec fun _ _ => rfl) (.andThen .growDecTail (.deliverDec fun _ _ => rfl))))
  | mapD2C d =>
    refine .unlessFaulted ?_
    cases operandDigit d with
    | some d' => exact .ifLogRoom fun _ _ => rfl
    | none => exact .next fun _ _ => rfl
  | mapC2D c =>
    refine .unlessFaulted ?_
    cases c2d c with
    | some d => exact .ifLogRoom fun _ _ => rfl
    | none => exact .ifLogRoom fun _ _ => rfl

theorem execute (w : CmdWord) : KeepsScript (execute w) := by
  refine .unlessFaulted ?_
  cases decode w with
  | error e => exact .next fun _ _ => rfl
  | ok i => exact .exec i

end KeepsScript

/-- A step of a host with words pending executes the first and leaves the others for the rest of the run. -/
theorem core_run_command (k : Nat) (w : CmdWord) (rest : List HostAction) (s : State) :
    core.run (k + 1) (s.setPending (.command w :: rest)) =
      andThen (execute w s) fun t => core.run k (t.setPending rest) := by
  have hstep : step (s.setPending (.command w :: rest)) = execute w (s.setPending rest) := step_of_command rfl
  rw [core_run_succ, hstep, KeepsScript.execute]
  cases execute w s <;> rfl

theorem runWords_cons_setPending (w : CmdWord) (ws : List CmdWord) (as : List HostAction) (s : State) :
    runWords (w :: ws) (s.setPending as) = andThen (execute w s) fun t => runWords ws (t.setPending as) := by
  simp only [runWords, KeepsScript.execute w as s, andThen_assoc, andThen_next]

/-- Settles O47, by induction on the words. -/
theorem steppingCommandsIsRunningWords : Obligations.SteppingCommandsIsRunningWords := by
  intro ws
  induction ws with
  | nil => exact fun _ => rfl
  | cons w ws ih =>
    intro s
    have hrest : (fun t : State => core.run ws.length (t.setPending (ws.map .command))) =
        fun t : State => runWords ws (t.setPending []) := funext ih
    exact (core_run_command ws.length w (ws.map .command) s).trans
      ((congrArg _ hrest).trans (runWords_cons_setPending w ws [] s).symm)

/-! ### Runs that succeed (R178) -/

theorem runSucceeds_cons {w : CmdWord} {ws : List CmdWord} {s : State} :
    (∃ t, RunSucceeds (w :: ws) s t) ↔ ∃ u, execute w s = .next u ∧ ∃ t, RunSucceeds ws u t := by
  simp only [RunSucceeds, runWords_cons_eq_next]
  exact ⟨fun ⟨t, ⟨u, hu, hrun⟩, ht⟩ => ⟨u, hu, t, hrun, ht⟩, fun ⟨u, hu, t, hrun, ht⟩ => ⟨t, ⟨u, hu, hrun⟩, ht⟩⟩

/-- No run succeeds from a faulted state. -/
theorem not_runSucceeds_of_fault {ws : List CmdWord} {s : State} (hs : s.fault = true) : ¬∃ t, RunSucceeds ws s t :=
  ((faultedBlockDiscardsCommands s hs).1 ws).2

/-- A word that spells a command keeps a live unbounded block live and unbounded. -/
theorem execute_live_unbounded {w : CmdWord} {i : Instr} {s u : State} (hs : s.fault = false)
    (hcaps : s.caps = .unbounded) (hdec : decode w = .ok i) (h : execute w s = .next u) :
    u.fault = false ∧ u.caps = .unbounded := by
  rw [execute_of_decode hdec] at h
  have hw := exec_writesOnly hs (wellFormed_of_decode hdec) h
  exact ⟨hw.faults.1.trans hs, hw.own.2.1.trans hcaps⟩

/-- Settles O49, by induction on the words: a word that spells no command leads to a faulted state, and the others
go on. -/
theorem runSucceedsIffAllWordsDecode : Obligations.RunSucceedsIffAllWordsDecode := by
  refine fun ws s hcaps => ⟨fun hs => ?_, not_runSucceeds_of_fault⟩
  induction ws generalizing s with
  | nil => exact ⟨fun _ => nofun, fun _ => ⟨s, rfl, hs⟩⟩
  | cons w ws ih =>
    rw [runSucceeds_cons, List.forall_mem_cons]
    cases hdec : decode w with
    | error e =>
      have hfault : execute w s = .next (s.setFault (faultCauseOf e) w) := execute_of_decode_error hs hdec
      refine ⟨fun ⟨u, hu, hrun⟩ => ?_, fun ⟨⟨i, hi⟩, _⟩ => nomatch hi⟩
      cases hfault.symm.trans hu
      exact absurd hrun (not_runSucceeds_of_fault rfl)
    | ok i =>
      obtain ⟨u, hu⟩ := exists_execute_unbounded w hcaps
      obtain ⟨hlive, hcaps'⟩ := execute_live_unbounded hs hcaps hdec hu
      have hiff := ih u hcaps' hlive
      refine ⟨fun ⟨v, hv, hrun⟩ => ⟨⟨i, rfl⟩, ?_⟩, fun ⟨_, hall⟩ => ⟨u, hu, hiff.2 hall⟩⟩
      cases hu.symm.trans hv
      exact hiff.1 hrun

end Sys2Proof.Machine
end

section
/-! Family other, assembler: the line of a command (R66) and of a pseudo-instruction (R67). The readers of the
operands are those of Laws/Assembler.lean. -/

namespace Sys2Proof.Machine

/-! ### The name that begins a line -/

/-- A character that ends a name: a blank, or the semicolon of a comment. -/
def endsName (c : Char) : Bool := isBlank c || c == ';'

/-- A name is split off what follows it when that begins where a name ends. -/
theorem takeWhile_name {name rest : List Char} (hname : ∀ c ∈ name, endsName c = false)
    (hrest : ∀ c ∈ rest.head?, endsName c = true) :
    (name ++ rest).takeWhile (fun c => !(isBlank c || c == ';')) = name := by
  have hnone : rest.takeWhile (fun c => !(isBlank c || c == ';')) = [] := by
    cases rest with
    | nil => rfl
    | cons c cs =>
      have hc : (isBlank c || c == ';') = true := hrest c rfl
      exact List.takeWhile_cons_of_neg (by simp [hc])
  rw [List.takeWhile_append_of_pos (fun c hc => by rw [Bool.not_eq_true']; exact hname c hc), hnone, List.append_nil]

/-- A line that begins with a name is a statement. -/
theorem assembleLine_of_name {name rest : List Char} (hne : name ≠ []) (hname : ∀ c ∈ name, endsName c = false) :
    assembleLine (name ++ rest) = assembleStatement (name ++ rest) := by
  obtain ⟨c, cs, rfl⟩ := List.exists_cons_of_ne_nil hne
  obtain ⟨hblank, hsemi⟩ := Bool.or_eq_false_iff.1 (hname c (List.mem_cons_self ..))
  have hskip : skipBlanks (c :: cs ++ rest) = c :: cs ++ rest := skipBlanks_of_not_blank hblank
  have hline : endsLine (c :: cs ++ rest) = false := by rw [endsLine, hskip]; exact hsemi
  rw [assembleLine, hline, hskip]
  rfl

/-! No letter of a mnemonic or of a pseudo-instruction's name ends a name. -/

theorem mnemonicOf_name (o : Opcode) : ∀ c ∈ mnemonicOf o, endsName c = false := by
  cases o <;> simp [mnemonicOf, endsName, isBlank]

theorem encodeFrameName_name : ∀ c ∈ encodeFrameName, endsName c = false := by
  simp [encodeFrameName, endsName, isBlank]

theorem decodeFrameName_name : ∀ c ∈ decodeFrameName, endsName c = false := by
  simp [decodeFrameName, endsName, isBlank]

theorem mnemonicOf_ne_nil (o : Opcode) : mnemonicOf o ≠ [] := by cases o <;> nofun

/-- A mnemonic names its opcode and no pseudo-instruction. -/
theorem opcodeNamed_mnemonicOf (o : Opcode) :
    opcodeNamed (mnemonicOf o) = some o ∧ (mnemonicOf o == encodeFrameName) = false ∧
      (mnemonicOf o == decodeFrameName) = false := by
  cases o <;> decide

theorem assembleLine_mnemonic {o : Opcode} {rest : List Char} (hrest : ∀ c ∈ rest.head?, endsName c = true) :
    assembleLine (mnemonicOf o ++ rest) = assembleCommand o rest := by
  have hname := mnemonicOf_name o
  obtain ⟨hopcode, henc, hdec⟩ := opcodeNamed_mnemonicOf o
  rw [assembleLine_of_name (mnemonicOf_ne_nil o) hname]
  simp only [assembleStatement, takeWhile_name hname hrest, List.drop_left, henc, hdec, hopcode, Bool.false_eq_true,
    if_false]

/-! ### The line of a command (R66) -/

/-- The blank before an operand is skipped, and nothing of the operand. -/
theorem skipBlanks_operand {t rest : List Char} {b : Byte} (h : IsOperandText t b) :
    skipBlanks (' ' :: t ++ rest) = t ++ rest := by
  obtain ⟨c, cs, rfl, hblank, -⟩ := isOperandText_front h
  exact (skipBlanks_space _).trans (skipBlanks_of_not_blank hblank)

theorem assembleCommand_operand {o : Opcode} {t rest : List Char} {b : Byte} (ho : o.takesOperand = true)
    (h : IsOperandText t b) (hnumber : EndsNumber rest) (hend : endsLine rest = true) :
    assembleCommand o (' ' :: t ++ rest) = some [commandWord o b] := by
  simp only [assembleCommand, ho, skipBlanks_operand h, readByte_of_isOperandText h hnumber, hend, if_true]

theorem assembleCommand_noOperand {o : Opcode} {rest : List Char} (ho : o.takesOperand = false)
    (hend : endsLine rest = true) : assembleCommand o rest = some [commandWord o 0x00] := by
  simp only [assembleCommand, ho, hend, Bool.false_eq_true, if_false, if_true]

/-- The line of a command, with what may follow the operand and the mnemonic. -/
theorem assembleLine_commandLine {i : Instr} {operand rest : List Char} (h : IsOperandText operand i.operand)
    (hname : ∀ c ∈ rest.head?, endsName c = true) (hnumber : EndsNumber rest) (hend : endsLine rest = true) :
    assembleLine (commandLine i operand ++ rest) = some [encode i] := by
  cases ho : i.opcode.takesOperand with
  | true =>
    rw [commandLine, if_pos ho, List.append_assoc, assembleLine_mnemonic (by rintro c ⟨⟩; rfl)]
    exact assembleCommand_operand ho h hnumber hend
  | false =>
    have hop : i.operand = 0 := (takesOperand_or_operand_eq_zero i).resolve_left (by simp [ho])
    rw [commandLine, if_neg (by simp [ho]), assembleLine_mnemonic hname, assembleCommand_noOperand ho hend, encode, hop]

/-- Settles O50: the line ends after the operand, or a comment follows. -/
theorem assembledLineIsCommandWord : Obligations.AssembledLineIsCommandWord := by
  refine fun i operand comment h => ⟨?_, ?_⟩
  · have hline := assembleLine_commandLine (rest := []) h nofun (.inl rfl) endsLine_nil
    rwa [List.append_nil] at hline
  · exact assembleLine_commandLine h (by rintro c ⟨⟩; rfl) (endsNumber_comment comment) (endsLine_comment comment)

/-! ### The line of a pseudo-instruction (R67) -/

section
variable {text : List Char} {bs : List Byte} (hfront : skipBlanks text = text) (hread : readFrame text = some (bs, []))
include hfront hread

theorem assembleLine_encodeFrame : assembleLine (encodeFrameName ++ ' ' :: text) =
    some (bs.map (fun b => encode (.encPush b)) ++ [encode .encEnd]) := by
  have hname := encodeFrameName_name
  rw [assembleLine_of_name (name := encodeFrameName) (List.cons_ne_nil _ _) hname]
  simp only [assembleStatement, takeWhile_name hname (rest := ' ' :: text) (by rintro c ⟨⟩; rfl), List.drop_left,
    skipBlanks_space, hfront, hread, endsLine_nil, beq_self_eq_true, if_true]
  simp [encodeFrameCommands]

theorem assembleLine_decodeFrame : assembleLine (decodeFrameName ++ ' ' :: text) =
    some (bs.map (fun b => encode (.decPush b)) ++ [encode .decEnd]) := by
  have hname := decodeFrameName_name
  have hne : (decodeFrameName == encodeFrameName) = false := by decide
  rw [assembleLine_of_name (name := decodeFrameName) (List.cons_ne_nil _ _) hname]
  simp only [assembleStatement, takeWhile_name hname (rest := ' ' :: text) (by rintro c ⟨⟩; rfl), List.drop_left, hne,
    Bool.false_eq_true, if_false, skipBlanks_space, hfront, hread, endsLine_nil, beq_self_eq_true, if_true]
  simp [decodeFrameCommands]

end

theorem skipBlanks_listText (texts : List (List Char)) : skipBlanks (listText texts) = listText texts :=
  skipBlanks_of_not_blank (by decide)

theorem skipBlanks_stringText (texts : List (List Char)) : skipBlanks (stringText texts) = stringText texts :=
  skipBlanks_of_not_blank (by decide)

/-- Settles O51: the list and the string are read whole, and nothing follows. -/
theorem assembledFrameIsPushesThenEnd : Obligations.AssembledFrameIsPushesThenEnd := by
  rintro elements _ _ rfl rfl
  refine ⟨fun h => ?_, fun h => ?_⟩
  · have hfront := skipBlanks_listText (elements.map Prod.fst)
    have hread := readFrame_listText h
    exact ⟨assembleLine_encodeFrame hfront hread, assembleLine_decodeFrame hfront hread⟩
  · have hfront := skipBlanks_stringText (elements.map Prod.fst)
    have hread := readFrame_stringText h
    exact ⟨assembleLine_encodeFrame hfront hread, assembleLine_decodeFrame hfront hread⟩

end Sys2Proof.Machine
end
